-- ==== Sys2Proof/Word.lean ====
section
/-! DEFINITION. The word types of the block M11 (00_scope.md R12, R13: every value is an unsigned integer, bit 0 is
the least significant bit). -/

namespace Sys2Proof

/-- Eight bits: an input byte of the encoder or an output byte of the decoder (R7 `BYTE_BITS = 8`). -/
abbrev Byte := BitVec 8

/-- Eleven bits: an index into the main or the tail table, and the field `arg` of a command word
(R7 `SYMBOL_BITS = 11`, R71). -/
abbrev Index := BitVec 11

/-- Sixteen bits: one command word (R71, the only format). -/
abbrev CmdWord := BitVec 16

end Sys2Proof
end

