-- ==== Sys2Proof/Config.lean ====
section
/-! DEFINITION. What is fixed for one block before its first command and is no state: the open parameters
`Symbol`, `TAIL_N`, `MAIN_SYM`, `MAIN_IDX`, `TAIL_SYM`, `TAIL_IDX` (00_scope.md R8 to R10; 10_state.md R37) and the
parameter `STRICT_TAIL` (93_implementation_defined.md U2). -/

namespace Sys2Proof

/-- A bundle that makes a type a datum, so that the type of the symbols can be a parameter. -/
structure SymbolType where
  carrier : Type

/-- The symbols over a bundled type, which comes with decidable equality, a way to print a value, and some value. No rule of
the spec and no definition of the machine looks inside (R9). -/
structure SymbolOf (T : SymbolType) [DecidableEq T.carrier] [Repr T.carrier] [Inhabited T.carrier] where
  value : T.carrier
deriving DecidableEq, Repr, Inhabited

namespace Config

/-- The parameters R8 to R10 of the block: the type of the symbols, `TAIL_N`, and the four table mappings, with the invariants
I1 to I3 that the supplied tables meet (20_memory.md R50 to R53; 70_reset_and_hazards.md R203, R204: "the well-formedness
predicate of the table parameter, established by whoever constructs the tables"). The mappings are functions (R165).
`tailSym` is total on 11-bit indices so that a read has a value; only its entries below `tailN` exist (R52), and nothing is
said of the others. The default values (a symbol is a mark and an index) show that such parameters exist; they are no table
of the hardware. -/
structure Tables where
  /-- `Symbol` (R9): any type at all. -/
  symbolType : SymbolType := ⟨Bool × Index⟩
  /-- R9: "with decidable equality". -/
  decEq : DecidableEq symbolType.carrier := by exact inferInstanceAs (DecidableEq (Bool × Index))
  /-- How a symbol is printed; the machine never uses it. -/
  repr : Repr symbolType.carrier := by exact inferInstanceAs (Repr (Bool × Index))
  /-- Some symbol: the tables hold symbols, so the type is not empty. -/
  inhabited : Inhabited symbolType.carrier := by exact inferInstanceAs (Inhabited (Bool × Index))
  /-- `TAIL_N`, the number of entries of the tail table (R8). -/
  tailN : Nat := 8
  /-- `MAIN_SYM` (R10). -/
  mainSym : Index → SymbolOf symbolType := by exact fun i => ⟨(true, i)⟩
  /-- `MAIN_IDX` (R10). -/
  mainIdx : SymbolOf symbolType → Option Index := by
    exact fun s => match s with
      | ⟨(main, i)⟩ => if main then some i else none
  /-- `TAIL_SYM` (R10); the entries below `tailN` are the table. -/
  tailSym : Index → SymbolOf symbolType := by exact fun i => ⟨(false, i)⟩
  /-- `TAIL_IDX` (R10). -/
  tailIdx : SymbolOf symbolType → Option Index := by
    exact fun s => match s with
      | ⟨(main, i)⟩ => if main = false ∧ i.toNat < 8 then some i else none
  /-- R8: the source's lower bound. -/
  tailN_ge : 8 ≤ tailN := by decide
  /-- R8: the spec's upper bound. -/
  tailN_le : tailN ≤ 2048 := by decide
  /-- I1 (R51), from the index to the symbol and back. -/
  mainIdx_mainSym : ∀ i, mainIdx (mainSym i) = some i := by exact fun _ => rfl
  /-- I1 (R51), from the symbol to the index and back. -/
  mainSym_of_mainIdx : ∀ s i, mainIdx s = some i → mainSym i = s := by
    rintro ⟨main, j⟩ i h
    cases main <;> simp_all
  /-- I2 (R52), from the index to the symbol and back, for the entries that exist. -/
  tailIdx_tailSym : ∀ i : Index, i.toNat < tailN → tailIdx (tailSym i) = some i := by
    exact fun i h => if_pos ⟨rfl, h⟩
  /-- I2 (R52), from the symbol to the index and back; an index found is in range. -/
  tailSym_of_tailIdx : ∀ s (i : Index), tailIdx s = some i → i.toNat < tailN ∧ tailSym i = s := by
    rintro ⟨main, j⟩ i h
    cases main
    · obtain ⟨hj, rfl⟩ : j.toNat < 8 ∧ j = i := by simpa using h
      exact ⟨hj, rfl⟩
    · simp at h
  /-- I3 (R52, R53): no symbol is in both tables. -/
  disjoint : ∀ s, mainIdx s = none ∨ tailIdx s = none := by
    rintro ⟨main, j⟩
    cases main <;> simp
deriving Inhabited

/-- The parameters of the block: OPEN in the spec (92_eei_decisions.md D17, D18), so an opaque constant. Nothing can be
proved of the symbols or of the contents of the tables beyond the invariants I1 to I3 and `8 ≤ TAIL_N ≤ 2048` that `Tables`
carries; every statement about the machine therefore holds for all of them (93_implementation_defined.md U11). Log entries 1
and 2. -/
opaque tables : Tables

/-- The parameter `STRICT_TAIL` of 93_implementation_defined.md U2 at the spec's normative value: a tail symbol that is
not flagged last is accepted (41_decoder.md R128 item d, decision D11). Log entry 3. -/
def strictTail : Bool := false

end Config

/-- The parameter `Symbol`: "an opaque type with decidable equality" (R9). Which type it is, how many symbols there are and
whether one stands outside both tables cannot be proved. Log entry 1. -/
abbrev Symbol : Type :=
  @SymbolOf Config.tables.symbolType Config.tables.decEq Config.tables.repr Config.tables.inhabited

/-- A free value: what stands on `sym_in` after reset, and beside a command that ignores the port (30_encoding.md R82 gives
it none). Log entries 5 and 14. -/
opaque Config.idleSymbol : Symbol

end Sys2Proof
end

