-- ==== Sys2Proof/Syntax.lean ====
section
/-! DEFINITION. The commands of the block as syntax: one constructor per row of the opcode map (30_encoding.md R73),
and the written form of a command, the source line of R79. -/

namespace Sys2Proof

/-- A command of the block, one constructor per row of spec/opcode_table.json. The operands are those of the command
word (R72): a byte, an 11-bit index, the flag `L`. The symbol operand of `lutMidx`, `lutTidx`, `lutClass` and `decSym`
is not in the word: it is the value of the port `sym_in` (R72, R82), which State holds. -/
inductive Instr where
  /-- ENC.INIT, start an encode stream (R100). -/
  | encInit
  /-- ENC.BYTE, take one input byte (R101). -/
  | encByte (byte : Byte)
  /-- ENC.FLUSH, end of input (R104). -/
  | encFlush
  /-- DEC.INIT, start a decode stream (R120). -/
  | decInit
  /-- DEC.MAIN, take a symbol found in the main table (R123); `last` is the flag `L`. -/
  | decMain (last : Bool) (idx : Index)
  /-- DEC.TAIL, take a symbol found in the tail table (R127); `last` is the flag `L`. -/
  | decTail (last : Bool) (idx : Index)
  /-- DEC.NONE, take a symbol found in neither table (R129); `last` is the flag `L`. -/
  | decNone (last : Bool)
  /-- DEC.END, end of the symbol sequence (R130). -/
  | decEnd
  /-- LUT.MSYM, read the main table by index (R152). -/
  | lutMsym (idx : Index)
  /-- LUT.TSYM, read the tail table by index (R153). -/
  | lutTsym (idx : Index)
  /-- LUT.MIDX, search the main table for the symbol on `sym_in` (R154). -/
  | lutMidx
  /-- LUT.TIDX, search the tail table for the symbol on `sym_in` (R155). -/
  | lutTidx
  /-- LUT.CLASS, classify the symbol on `sym_in` (R156). -/
  | lutClass
  /-- DEC.SYM, look the symbol on `sym_in` up and decode it (R157); `last` is the flag `L`. -/
  | decSym (last : Bool)
deriving DecidableEq, Repr

/-- The mnemonics of R73, and the directive `.word` that 95_test_vectors.md section 4 writes for a raw command word. -/
inductive Mnemonic where
  | encInit | encByte | encFlush
  | decInit | decMain | decTail | decNone | decEnd
  | lutMsym | lutTsym | lutMidx | lutTidx | lutClass
  | decSym
  | word
deriving DecidableEq, Repr

/-- The mnemonic of a command. -/
def Instr.mnemonic : Instr → Mnemonic
  | .encInit => .encInit
  | .encByte _ => .encByte
  | .encFlush => .encFlush
  | .decInit => .decInit
  | .decMain _ _ => .decMain
  | .decTail _ _ => .decTail
  | .decNone _ => .decNone
  | .decEnd => .decEnd
  | .lutMsym _ => .lutMsym
  | .lutTsym _ => .lutTsym
  | .lutMidx => .lutMidx
  | .lutTidx => .lutTidx
  | .lutClass => .lutClass
  | .decSym _ => .decSym

/-- The unit a command belongs to (R73, column `unit`). DEC.SYM works on the decoder's registers. -/
inductive CommandUnit where
  | enc
  | dec
  | lut
deriving DecidableEq, Repr

/-- The unit of each command (R73). -/
def Instr.commandUnit : Instr → CommandUnit
  | .encInit => .enc
  | .encByte _ => .enc
  | .encFlush => .enc
  | .decInit => .dec
  | .decMain _ _ => .dec
  | .decTail _ _ => .dec
  | .decNone _ => .dec
  | .decEnd => .dec
  | .lutMsym _ => .lut
  | .lutTsym _ => .lut
  | .lutMidx => .lut
  | .lutTidx => .lut
  | .lutClass => .lut
  | .decSym _ => .dec

/-- What a source line writes after the mnemonic (R79). -/
inductive LineOperand where
  | none
  | number (n : Nat)
  | symbol (s : Symbol)
deriving DecidableEq, Repr

/-- One source line (R79): a mnemonic, the suffix `.L` or not, an operand. It is what a person writes, so it can be
wrong; WellFormed.lean says when it is not. -/
structure SourceLine where
  mnemonic : Mnemonic
  /-- The suffix `.L` is written. -/
  last : Bool
  operand : LineOperand
deriving DecidableEq, Repr

end Sys2Proof
end

