-- ==== Sys2Proof/Machine/State.lean ====
section
/-! DEFINITION. The state of one instance of the block: the six registers of 10_state.md R20, and what stands around
them so that one step can be a function of the state: the port `sym_in`, the inputs the host has presented, and the
output ports of the last command (30_encoding.md R70, R74, R82). -/

namespace Sys2Proof.Machine

/-- The encoder's registers (R21, R22). -/
structure Enc where
  /-- `E.stage`, 10 bits: the pending bits, right-aligned, the oldest uppermost (R21). -/
  stage : BitVec 10
  /-- `E.pending`, 4 bits: how many bits `E.stage` holds (R22). -/
  pending : BitVec 4
deriving DecidableEq, Repr

/-- The decoder's registers (R24 to R27). -/
structure Dec where
  /-- `D.stage`, 7 bits: the undelivered bits, right-aligned, the oldest uppermost (R24). -/
  stage : BitVec 7
  /-- `D.pending`, 3 bits: how many bits `D.stage` holds (R25). -/
  pending : BitVec 3
  /-- `D.residue`, 3 bits: 11 times the number of symbol commands so far, modulo 8 (R26). -/
  residue : BitVec 3
  /-- `D.fail`, 1 bit: the stream has failed (R27). -/
  fail : Bool
deriving DecidableEq, Repr

/-- The values of the port `kind` (R74). The fourth code of its two bits is never driven and has no name here. -/
inductive Kind where
  | none
  | main
  | tail
deriving DecidableEq, Repr

/-- A kind with the index that goes with it: what the encoder emits, what a search answers, and what `DECODE.IDX` takes
(R74, R80, R156). -/
inductive Code where
  | main (idx : Index)
  | tail (idx : Index)
  | none
deriving DecidableEq, Repr

/-- The names on the port `status` (60_exceptions.md R176). The codes 6 to 15 are not assigned and have no name here. -/
inductive Status where
  /-- 0: the command did what its rule says (R170). -/
  | ok
  /-- 1: raised by the decoder on an unknown symbol or a tail value too large (R171), and again by every decoder
  command but DEC.INIT while `D.fail` is set (R131). -/
  | invalidSymbol
  /-- 2: kept for the software around the block, which never drives it (R173). -/
  | invalidData
  /-- 3: kept for the software around the block, which never drives it (R173). -/
  | ioError
  /-- 4: LUT.TSYM beyond the tail table (R174). -/
  | tableDefect
  /-- 5: the command word selects no row of the opcode map (R175). -/
  | illegalCommand
deriving DecidableEq, Repr

/-- The output ports at the end of one command (R74). A port that carries no value is `none`, or a missing list entry,
never a zero. `bytes` stands for the ports `nbytes`, `byte0` and `byte1`, in the order emitted. -/
structure Response where
  status : Status
  kind : Kind
  idx : Option Index
  symOut : Option Symbol
  bytes : List Byte
deriving DecidableEq, Repr

/-- What the host presents to the block: a command word with the value that stands on `sym_in` beside it (R70, R82), or
the reset (70_reset_and_hazards.md R200). -/
inductive Input where
  | command (word : CmdWord) (symIn : Symbol)
  | reset
deriving DecidableEq, Repr

/-- The state of the machine. `enc` and `dec` are the block's whole state (R20). The other three fields are the model's
own (log entry 4): the input port, the sequence of inputs the host has presented and the block has not yet performed, in
order, and the output ports as the last performed input left them. -/
structure State where
  /-- `E.stage`, `E.pending`. -/
  enc : Enc
  /-- `D.stage`, `D.pending`, `D.residue`, `D.fail`. -/
  dec : Dec
  /-- The value on the port `sym_in` (R82). -/
  symIn : Symbol
  /-- The inputs presented and not yet performed, the next one first (R70, R81). -/
  queue : List Input
  /-- The output ports after the last command; `none` when nothing was performed since the last reset (R74). -/
  resp : Option Response
deriving DecidableEq, Repr

/-- The reasons a step could stop with a fault: there are none. The faults of the spec (InvalidSymbol, TableDefect,
IllegalCommand) end a command with a status and the machine goes on (R170, R180), so they are next states. -/
inductive Fault : Type
deriving DecidableEq, Repr

/-- The reasons a step gives no next state. -/
inductive Refusal where
  /-- Raised by an arm of exec that has no meaning yet; no arm raises it. Safe. -/
  | notModelled (mnemonic : String)
  /-- Raised by ENC.BYTE and ENC.FLUSH in a state whose `E.pending` is 11 to 15: "no rule gives them a meaning" (R22),
  and 93_implementation_defined.md U7 has a model with a 4-bit register refuse such states. No run reaches one. Safe. -/
  | encoderPendingOutOfRange
deriving DecidableEq, Repr

/-- The encoder's initial state (R36, R100). -/
abbrev Enc.initial : Enc := { stage := 0, pending := 0 }

/-- The decoder's initial state (R36, R120). -/
abbrev Dec.initial : Dec := { stage := 0, pending := 0, residue := 0, fail := false }

/-- The machine right after reset: every register 0 (R36, R200), nothing presented, no command performed. The value on
`sym_in` is the host's; a free value stands for it here (DESIGN CHOICE, log entry 5). -/
def State.reset : State :=
  { enc := { stage := 0, pending := 0 }
    dec := { stage := 0, pending := 0, residue := 0, fail := false }
    symIn := Config.idleSymbol
    queue := []
    resp := none }

end Sys2Proof.Machine
end

