-- ==== Sys2Proof/Machine/Operands.lean ====
section
/-! DEFINITION. Operand forms: the fields of the command word (30_encoding.md R71, R72), the symbol operand on the port
`sym_in` (R82), and the codes of the output ports (R74, R176). -/

namespace Sys2Proof.Machine

/-- `op = cmd[15:12]` (R71). -/
def opField (w : CmdWord) : BitVec 4 := w.extractLsb' 12 4

/-- `L = cmd[11]` (R71, R121). -/
def lastField (w : CmdWord) : Bool := w.getLsbD 11

/-- `arg = cmd[10:0]` (R71), the index operand of DEC.MAIN, DEC.TAIL, LUT.MSYM and LUT.TSYM (R72). -/
def argField (w : CmdWord) : Index := w.extractLsb' 0 11

/-- `byte = arg[7:0]`, the operand of ENC.BYTE (R72). -/
def byteField (w : CmdWord) : Byte := w.extractLsb' 0 8

/-- `arg[10:8]`, which must be 0 in ENC.BYTE (R72). -/
def byteGuardField (w : CmdWord) : BitVec 3 := w.extractLsb' 8 3

/-- The command word of an opcode, a flag and an argument: `op` in bits 15 to 12, `L` in bit 11, `arg` in bits 10 to 0
(R71). -/
def cmdWord (op : BitVec 4) (last : Bool) (arg : Index) : CmdWord := (op ++ BitVec.ofBool last) ++ arg

/-- A byte operand as an argument: `arg[7:0]` the byte, `arg[10:8]` zero (R72). -/
def byteArg (b : Byte) : Index := b.setWidth 11

/-- The symbol operand of LUT.MIDX, LUT.TIDX, LUT.CLASS and DEC.SYM: the value on `sym_in` (R72, R82). -/
def symOperand (s : State) : Symbol := s.symIn

/-- The kind of a code (R74). -/
def Code.kind : Code → Kind
  | .main _ => .main
  | .tail _ => .tail
  | .none => .none

/-- The index of a code; none where the kind is `NONE` (R74). -/
def Code.idx : Code → Option Index
  | .main i => some i
  | .tail i => some i
  | .none => Option.none

/-- The code a response reports on its ports `kind` and `idx`, if it reports one. -/
def Response.code (r : Response) : Code :=
  match r.kind, r.idx with
  | .main, some i => .main i
  | .tail, some i => .tail i
  | _, _ => .none

/-- The 2-bit code on the port `kind` (R74). -/
def Kind.port : Kind → BitVec 2
  | .none => 0
  | .main => 1
  | .tail => 2

/-- The 4-bit code on the port `status` (R176). -/
def Status.port : Status → BitVec 4
  | .ok => 0
  | .invalidSymbol => 1
  | .invalidData => 2
  | .ioError => 3
  | .tableDefect => 4
  | .illegalCommand => 5

/-- The 2-bit port `nbytes`: how many bytes the command emitted (R74). -/
def Response.nbytes (r : Response) : BitVec 2 := BitVec.ofNat 2 r.bytes.length

/-- The port `byte0`: the first byte emitted, if any (R74). -/
def Response.byte0 (r : Response) : Option Byte := r.bytes[0]?

/-- The port `byte1`: the second byte emitted, if any (R74). -/
def Response.byte1 (r : Response) : Option Byte := r.bytes[1]?

end Sys2Proof.Machine
end

