-- ==== Sys2Proof/Decode.lean ====
section
/-! DEFINITION. The opcode map of 30_encoding.md R73, the decoder of command words, total on all 65536 words and
rejecting by name, and after it the encoder. A command word is presented on a port, so no byte order is involved
(20_memory.md R57): a word's bits are the bits of the opcode table. -/

namespace Sys2Proof

open Machine

/-- Why a command word is illegal (R76). -/
inductive IllegalWord where
  /-- `op` is 0x0 or 0xF. -/
  | opcodeUnassigned
  /-- `L = 1` in a command where it must be 0. -/
  | lastFlagNotZero
  /-- `arg`, or in ENC.BYTE `arg[10:8]`, is not 0 where it must be. -/
  | argumentNotZero
deriving DecidableEq, Repr

/-- The two fields that must be 0 in a command without `L` and without `arg` (R73). -/
def plainCommand (w : CmdWord) (i : Instr) : Except IllegalWord Instr :=
  if lastField w then .error .lastFlagNotZero
  else if argField w = 0 then .ok i
  else .error .argumentNotZero

/-- A command with `L` whose `arg` must be 0 (R73). -/
def flaggedCommand (w : CmdWord) (i : Bool → Instr) : Except IllegalWord Instr :=
  if argField w = 0 then .ok (i (lastField w)) else .error .argumentNotZero

/-- A command with an index whose `L` must be 0 (R73). -/
def indexedCommand (w : CmdWord) (i : Index → Instr) : Except IllegalWord Instr :=
  if lastField w then .error .lastFlagNotZero else .ok (i (argField w))

/-- ENC.BYTE: `L` and `arg[10:8]` must be 0 (R72, R73). -/
def byteCommand (w : CmdWord) : Except IllegalWord Instr :=
  if lastField w then .error .lastFlagNotZero
  else if byteGuardField w = 0 then .ok (.encByte (byteField w))
  else .error .argumentNotZero

/-- The decoder of command words (R73, R76). -/
def decode (w : CmdWord) : Except IllegalWord Instr :=
  match (opField w).toNat with
  | 0x1 => plainCommand w .encInit
  | 0x2 => byteCommand w
  | 0x3 => plainCommand w .encFlush
  | 0x4 => plainCommand w .decInit
  | 0x5 => .ok (.decMain (lastField w) (argField w))
  | 0x6 => .ok (.decTail (lastField w) (argField w))
  | 0x7 => flaggedCommand w .decNone
  | 0x8 => plainCommand w .decEnd
  | 0x9 => indexedCommand w .lutMsym
  | 0xA => indexedCommand w .lutTsym
  | 0xB => plainCommand w .lutMidx
  | 0xC => plainCommand w .lutTidx
  | 0xD => plainCommand w .lutClass
  | 0xE => flaggedCommand w .decSym
  | _ => .error .opcodeUnassigned

/-- The word of a command (R71 to R73). -/
def encode : Instr → CmdWord
  | .encInit => cmdWord 0x1 false 0
  | .encByte b => cmdWord 0x2 false (byteArg b)
  | .encFlush => cmdWord 0x3 false 0
  | .decInit => cmdWord 0x4 false 0
  | .decMain last idx => cmdWord 0x5 last idx
  | .decTail last idx => cmdWord 0x6 last idx
  | .decNone last => cmdWord 0x7 last 0
  | .decEnd => cmdWord 0x8 false 0
  | .lutMsym idx => cmdWord 0x9 false idx
  | .lutTsym idx => cmdWord 0xA false idx
  | .lutMidx => cmdWord 0xB false 0
  | .lutTidx => cmdWord 0xC false 0
  | .lutClass => cmdWord 0xD false 0
  | .decSym last => cmdWord 0xE last 0

/-- One row of the opcode map (R73). -/
structure OpcodeRow where
  mnemonic : Mnemonic
  /-- The column `match`. -/
  value : CmdWord
  mask : CmdWord
deriving DecidableEq, Repr

/-- The opcode map, row by row as R73 prints it. -/
def opcodeMap : List OpcodeRow :=
  [ ⟨.encInit, 0x1000, 0xFFFF⟩, ⟨.encByte, 0x2000, 0xFF00⟩, ⟨.encFlush, 0x3000, 0xFFFF⟩,
    ⟨.decInit, 0x4000, 0xFFFF⟩, ⟨.decMain, 0x5000, 0xF000⟩, ⟨.decTail, 0x6000, 0xF000⟩,
    ⟨.decNone, 0x7000, 0xF7FF⟩, ⟨.decEnd, 0x8000, 0xFFFF⟩, ⟨.lutMsym, 0x9000, 0xF800⟩,
    ⟨.lutTsym, 0xA000, 0xF800⟩, ⟨.lutMidx, 0xB000, 0xFFFF⟩, ⟨.lutTidx, 0xC000, 0xFFFF⟩,
    ⟨.lutClass, 0xD000, 0xFFFF⟩, ⟨.decSym, 0xE000, 0xF7FF⟩ ]

/-- "a word `w` selects the row when `w & mask = match`" (R73). -/
def OpcodeRow.selects (r : OpcodeRow) (w : CmdWord) : Bool := w &&& r.mask == r.value

/-- The instruction the decoder reads from a table row's word: bit 0 is the least significant bit of the one 16-bit
word, and the bits above `nbits` are 0. -/
def decodeTableWord (nbits w : Nat) : Option Instr :=
  match decode (BitVec.ofNat 16 (w % 2 ^ nbits)) with
  | .ok i => some i
  | .error _ => none

end Sys2Proof
end

