-- ==== Sys2Proof/Machine/Ops.lean ====
section
/-! DEFINITION. The named operations the meanings share: the output ports (30_encoding.md R74, R75), the table reads
(42_lookup.md), the encoder and decoder datapaths (40_encoder.md, 41_decoder.md) and what a fault does
(60_exceptions.md R170, R180). Arithmetic is done exactly on naturals (00_scope.md R14) and narrowed to the register at
the end. -/

namespace Sys2Proof.Machine

/-- A command that ends with `OK` and drives nothing (R75). -/
def Response.quiet : Response :=
  { status := .ok, kind := .none, idx := none, symOut := none, bytes := [] }

/-- The answer of a search: a code on `kind` and `idx`, no symbol (R154 to R156). -/
def Response.answer (c : Code) : Response :=
  { status := .ok, kind := c.kind, idx := c.idx, symOut := none, bytes := [] }

/-- The bytes a decoder command emitted (R75). -/
def Response.ofBytes (bs : List Byte) : Response :=
  { status := .ok, kind := .none, idx := none, symOut := none, bytes := bs }

/-- A command that ends with a fault drives its code and nothing else (R75, D30). -/
def Response.fault (st : Status) : Response :=
  { status := st, kind := .none, idx := none, symOut := none, bytes := [] }

/-- Drive the output ports. -/
def State.respond (s : State) (r : Response) : State := { s with resp := some r }

/-- Write the encoder's registers. -/
def State.withEnc (s : State) (e : Enc) : State := { s with enc := e }

/-- Write the decoder's registers. -/
def State.withDec (s : State) (d : Dec) : State := { s with dec := d }

/-! ## What a fault does -/

/-- Taking a fault (R170, R180): "a fault is reported on the `status` port of the command that raised it". No vector, no
saved state, no change of mode; the machine goes on with the next command. -/
def State.raise (s : State) (st : Status) : State := s.respond (.fault st)

/-- Taking InvalidSymbol (R171): the fault, remembered in `D.fail`. `d` is the decoder with the writes the faulting command
made before it raised. -/
def State.raiseInvalidSymbol (s : State) (d : Dec) : State :=
  (s.withDec { d with fail := true }).raise .invalidSymbol

/-- The way on from InvalidSymbol, the only one: a new decode stream (R182, R120). -/
def State.startDecodeStream (s : State) : State := s.withDec .initial

/-! ## The tables -/

/-- The symbol that stands for a code: `MAIN_SYM(i)`, `TAIL_SYM(i)`, or nothing (R158). -/
def Code.symbol : Code → Option Symbol
  | .main i => some (Config.tables.mainSym i)
  | .tail i => some (Config.tables.tailSym i)
  | .none => Option.none

/-- `emit_sym(kind, idx)`: the code and the symbol that stands for it (R74, R158). -/
def Response.emission (c : Code) : Response :=
  { status := .ok, kind := c.kind, idx := c.idx, symOut := c.symbol, bytes := [] }

/-- The search of LUT.MIDX: the main table alone (R154). -/
def mainSearch (sym : Symbol) : Code :=
  match Config.tables.mainIdx sym with
  | some i => .main i
  | none => .none

/-- The search of LUT.TIDX: the tail table alone (R155). -/
def tailSearch (sym : Symbol) : Code :=
  match Config.tables.tailIdx sym with
  | some i => .tail i
  | none => .none

/-- The search of LUT.CLASS and DEC.SYM: the main table, else the tail table, else neither (R156). -/
def classify (sym : Symbol) : Code :=
  match Config.tables.mainIdx sym with
  | some i => .main i
  | none =>
    match Config.tables.tailIdx sym with
    | some j => .tail j
    | none => .none

/-! ## The encoder's datapath -/

/-- ENC.BYTE on the encoder's registers, for `E.pending ≤ 10`: the new registers and what is emitted (R101). The results
are cut to the widths of the register (R21) and of the port `idx` (R74); under the encoder's invariant they fit (R102,
R103). Outside it the cut is a DESIGN CHOICE, log entry 6. -/
def Enc.takeByte (e : Enc) (b : Byte) : Enc × Code :=
  let need := 11 - e.pending.toNat
  if need ≤ 8 then
    let rem := 8 - need
    let g := (e.stage.toNat <<< need) ||| (b.toNat >>> rem)
    ({ stage := BitVec.ofNat 10 (b.toNat &&& (2 ^ rem - 1)), pending := BitVec.ofNat 4 rem },
      .main (BitVec.ofNat 11 g))
  else
    ({ stage := BitVec.ofNat 10 ((e.stage.toNat <<< 8) ||| b.toNat),
       pending := BitVec.ofNat 4 (e.pending.toNat + 8) },
      .none)

/-- What ENC.FLUSH emits for the remainder, for `E.pending ≤ 10`: the table is chosen by the number of pending bits, not by
their value (R104, R151). -/
def Enc.remainder (e : Enc) : Code :=
  if e.pending = 0 then .none
  else if e.pending.toNat ≤ 3 then .tail (e.stage.setWidth 11)
  else .main (e.stage.setWidth 11)

/-- `E.pending` is 11 to 15, where no rule gives ENC.BYTE and ENC.FLUSH a meaning (R22; U7). -/
def Enc.outOfRange (e : Enc) : Bool := decide (10 < e.pending.toNat)

/-! ## The decoder's datapath -/

/-- Step 1 of every symbol command: `D.residue <- (D.residue + 11) mod 8` (R122). -/
def Dec.advanceResidue (d : Dec) : Dec :=
  { d with residue := BitVec.ofNat 3 ((d.residue.toNat + 11) % 8) }

/-- The emission loop of `append` (R124): while 8 or more bits are pending, emit the oldest 8. The answer is the bytes in
order and the number of bits left. The first argument bounds the passes; two always suffice (R124, R218). -/
def drain : Nat → Nat → Nat → List Byte × Nat
  | 0, _, pending => ([], pending)
  | passes + 1, wide, pending =>
    if 8 ≤ pending then
      let rest := drain passes wide (pending - 8)
      (BitVec.ofNat 8 (wide >>> (pending - 8)) :: rest.1, rest.2)
    else ([], pending)

/-- The procedure `append(n, value)` (R124): the new decoder registers and the bytes emitted. -/
def Dec.append (d : Dec) (n value : Nat) : Dec × List Byte :=
  let wide := (d.stage.toNat <<< n) ||| value
  let drained := drain 2 wide (d.pending.toNat + n)
  ({ d with
      stage := BitVec.ofNat 7 (wide &&& (2 ^ drained.2 - 1))
      pending := BitVec.ofNat 3 drained.2 },
    drained.1)

/-- The number of bits a main symbol stands for (R123, R125, R126); `d` is the decoder after the residue update. -/
def Dec.mainWidth (d : Dec) (last : Bool) : Nat := if last then 11 - d.residue.toNat else 11

/-- The number of bits the byte being assembled lacks (R127). -/
def Dec.need (d : Dec) : Nat := 8 - d.pending.toNat

/-- Decode one main symbol (R123), `D.fail = 0`. -/
def State.takeMain (s : State) (last : Bool) (idx : Index) : State :=
  let d := s.dec.advanceResidue
  let appended := d.append (d.mainWidth last) idx.toNat
  (s.withDec appended.1).respond (.ofBytes appended.2)

/-- Decode one tail symbol (R127, R128), `D.fail = 0`. With `strict` a tail symbol not flagged last is rejected: the
parameter of 93_implementation_defined.md U2, whose normative value is false. -/
def State.takeTail (strict : Bool) (s : State) (last : Bool) (idx : Index) : State :=
  let d := s.dec.advanceResidue
  if 2 ^ d.need ≤ idx.toNat ∨ (strict = true ∧ last = false) then s.raiseInvalidSymbol d
  else
    let appended := d.append d.need idx.toNat
    (s.withDec appended.1).respond (.ofBytes appended.2)

/-- Decode one symbol that is in neither table (R129), `D.fail = 0`: always InvalidSymbol. -/
def State.takeUnknown (s : State) : State := s.raiseInvalidSymbol s.dec.advanceResidue

/-- Decode one symbol of a known kind, `D.fail = 0` (R157): the three arms of the source's per-symbol step. -/
def State.takeCode (s : State) (last : Bool) : Code → State
  | .main idx => s.takeMain last idx
  | .tail idx => s.takeTail Config.strictTail last idx
  | .none => s.takeUnknown

/-- The byte DEC.END emits when bits are left: `zext_8(D.stage)` (R130; U4 for its alignment). -/
def Dec.leftover (d : Dec) : List Byte := if d.pending = 0 then [] else [d.stage.setWidth 8]

/-! ## Inputs -/

/-- Reset (R200): the same effect on the encoder as ENC.INIT and on the decoder as DEC.INIT, and no other; the ports
carry no response, since no command was performed since. -/
def State.applyReset (s : State) : State :=
  { s with enc := .initial, dec := .initial, resp := none }

/-- The next input is taken off the sequence the host presents. -/
def State.advance (s : State) (rest : List Input) : State := { s with queue := rest }

/-- The next command is taken off the sequence and its symbol stands on `sym_in` (R70, R82). -/
def State.present (s : State) (sym : Symbol) (rest : List Input) : State :=
  { s with symIn := sym, queue := rest }

/-- An illegal word (R76, R175): no register changes, nothing is emitted, `D.fail` is not set. -/
def State.illegal (s : State) : State := s.raise .illegalCommand

/-- A word put where the next command is read, its `sym_in` as it stands. -/
def State.putWord (s : State) (w : CmdWord) : State :=
  { s with queue := .command w s.symIn :: s.queue.drop 1 }

end Sys2Proof.Machine
end

