-- ==== Sys2Proof/Machine/Flags.lean ====
section
/-! DEFINITION. The one flag of the block, `D.fail` (10_state.md R27, R31; no command sets a zero, carry, overflow or sign
flag), and what it does to every decoder command but DEC.INIT (41_decoder.md R131). -/

namespace Sys2Proof.Machine

/-- The flag `D.fail`. -/
def State.failed (s : State) : Bool := s.dec.fail

/-- While `D.fail = 1` a decoder command "changes no register, emits nothing and ends with `status = InvalidSymbol`"
(R131); else it does `live s`. This check comes before every other one of the command (60_exceptions.md R179). -/
def State.whileLive (s : State) (live : State → State) : State :=
  if s.failed then s.raise .invalidSymbol else live s

end Sys2Proof.Machine
end

