-- ==== Sys2Proof/Machine/Decoder.lean ====
section
/-! DEFINITION. The meanings of the decoder's commands (41_decoder.md), and of DEC.SYM, which looks a symbol up and then
does what one of them does (42_lookup.md R157). -/

namespace Sys2Proof.Machine

/-- DEC.INIT (R120): the four decoder registers 0, `D.fail` among them. -/
def execDecInit (s : State) : Host.Outcome State Fault Refusal :=
  .next (s.startDecodeStream.respond .quiet)

/-- DEC.MAIN (R123, R125, R126). -/
def execDecMain (last : Bool) (idx : Index) (s : State) : Host.Outcome State Fault Refusal :=
  .next (s.whileLive fun s => s.takeMain last idx)

/-- DEC.TAIL (R127, R128). -/
def execDecTail (last : Bool) (idx : Index) (s : State) : Host.Outcome State Fault Refusal :=
  .next (s.whileLive fun s => s.takeTail Config.strictTail last idx)

/-- DEC.NONE (R129); `L` is ignored (R121). -/
def execDecNone (_last : Bool) (s : State) : Host.Outcome State Fault Refusal :=
  .next (s.whileLive fun s => s.takeUnknown)

/-- DEC.END (R130): the bits left, if any, leave as one byte; the registers return to 0. -/
def execDecEnd (s : State) : Host.Outcome State Fault Refusal :=
  .next (s.whileLive fun s => (s.withDec .initial).respond (.ofBytes s.dec.leftover))

/-- DEC.SYM (R157): the search of LUT.CLASS, then what DEC.MAIN, DEC.TAIL or DEC.NONE does. While `D.fail = 1` the tables
are not consulted (60_exceptions.md R179). -/
def execDecSym (last : Bool) (s : State) : Host.Outcome State Fault Refusal :=
  .next (s.whileLive fun s => s.takeCode last (classify (symOperand s)))

end Sys2Proof.Machine
end

