-- ==== Sys2Proof/Machine/Encoder.lean ====
section
/-! DEFINITION. The meanings of the encoder's commands (40_encoder.md). -/

namespace Sys2Proof.Machine

/-- ENC.INIT (R100): both encoder registers 0, nothing emitted. -/
def execEncInit (s : State) : Host.Outcome State Fault Refusal :=
  .next ((s.withEnc .initial).respond .quiet)

/-- ENC.BYTE (R101 to R103): the byte joins the accumulator; a completed group leaves as one main symbol. -/
def execEncByte (byte : Byte) (s : State) : Host.Outcome State Fault Refusal :=
  if s.enc.outOfRange then .refused .encoderPendingOutOfRange
  else .next ((s.withEnc (s.enc.takeByte byte).1).respond (.emission (s.enc.takeByte byte).2))

/-- ENC.FLUSH (R104): the remainder leaves as one symbol, if there is one; both encoder registers 0. -/
def execEncFlush (s : State) : Host.Outcome State Fault Refusal :=
  if s.enc.outOfRange then .refused .encoderPendingOutOfRange
  else .next ((s.withEnc .initial).respond (.emission s.enc.remainder))

end Sys2Proof.Machine
end

