-- ==== Sys2Proof/Machine/Lookup.lean ====
section
/-! DEFINITION. The meanings of the table commands (42_lookup.md). None of them reads or writes a register (R150). -/

namespace Sys2Proof.Machine

/-- LUT.MSYM (R152): the main table read by index. -/
def execLutMsym (idx : Index) (s : State) : Host.Outcome State Fault Refusal :=
  .next (s.respond (.emission (.main idx)))

/-- LUT.TSYM (R153): the tail table read by index; an index beyond the table raises TableDefect. -/
def execLutTsym (idx : Index) (s : State) : Host.Outcome State Fault Refusal :=
  .next (if Config.tables.tailN ≤ idx.toNat then s.raise .tableDefect else s.respond (.emission (.tail idx)))

/-- LUT.MIDX (R154): the main table searched for the symbol on `sym_in`. -/
def execLutMidx (s : State) : Host.Outcome State Fault Refusal :=
  .next (s.respond (.answer (mainSearch (symOperand s))))

/-- LUT.TIDX (R155): the tail table searched for the symbol on `sym_in`. -/
def execLutTidx (s : State) : Host.Outcome State Fault Refusal :=
  .next (s.respond (.answer (tailSearch (symOperand s))))

/-- LUT.CLASS (R156): the symbol on `sym_in` classified, main table first. -/
def execLutClass (s : State) : Host.Outcome State Fault Refusal :=
  .next (s.respond (.answer (classify (symOperand s))))

end Sys2Proof.Machine
end

