-- ==== Sys2Proof/Machine/Dispatch.lean ====
section
/-! DEFINITION. One arm per command (30_encoding.md R73). -/

namespace Sys2Proof.Machine

def exec (i : Instr) (s : State) : Host.Outcome State Fault Refusal :=
  match i with
  | .encInit => Sys2Proof.Machine.execEncInit s
  | .encByte byte => Sys2Proof.Machine.execEncByte byte s
  | .encFlush => Sys2Proof.Machine.execEncFlush s
  | .decInit => Sys2Proof.Machine.execDecInit s
  | .decMain last idx => Sys2Proof.Machine.execDecMain last idx s
  | .decTail last idx => Sys2Proof.Machine.execDecTail last idx s
  | .decNone last => Sys2Proof.Machine.execDecNone last s
  | .decEnd => Sys2Proof.Machine.execDecEnd s
  | .lutMsym idx => Sys2Proof.Machine.execLutMsym idx s
  | .lutTsym idx => Sys2Proof.Machine.execLutTsym idx s
  | .lutMidx => Sys2Proof.Machine.execLutMidx s
  | .lutTidx => Sys2Proof.Machine.execLutTidx s
  | .lutClass => Sys2Proof.Machine.execLutClass s
  | .decSym last => Sys2Proof.Machine.execDecSym last s

end Sys2Proof.Machine
end

