-- ==== Sys2Proof/Machine/Step.lean ====
section
/-! DEFINITION. One step of the block: it performs the next input the host presents (30_encoding.md R70). -/

namespace Sys2Proof.Machine

/-- One step. With nothing presented the block holds its registers (60_exceptions.md R189; R200: "the block does nothing
until it is given a command"). A reset is performed as R200 says. A command word is decoded and performed with its
symbol on `sym_in`; an illegal word ends with IllegalCommand (R76). -/
def step (s : State) : Host.Outcome State Fault Refusal :=
  match s.queue with
  | [] => .next s
  | .reset :: rest => .next (s.advance rest).applyReset
  | .command w sym :: rest =>
    match decode w with
    | .ok i => exec i (s.present sym rest)
    | .error _ => .next (s.present sym rest).illegal

/-- `s` with the 16-bit word `w` as the next command the host presents (the bits above `nbits` are 0). The block fetches
nothing (10_state.md R30): this stands for the host presenting the command. -/
def State.withFetchWord (s : State) (nbits w : Nat) : State :=
  s.putWord (BitVec.ofNat 16 (w % 2 ^ nbits))

end Sys2Proof.Machine
end

