-- ==== Sys2Proof/WellFormed.lean ====
section
/-! DEFINITION. The well-formedness checks. A term of Instr cannot be ill formed: every operand has the width of its
field (R72), so the type refuses a byte of 256 or an index of 2048. What can be ill formed is what stands before and
around commands: a source line (30_encoding.md R79) and the shape of a stream (R81), which is the host's duty and which
the block does not check. -/

namespace Sys2Proof

/-- What R79 lets stand after a mnemonic: nothing, a number below a bound, or a symbol. -/
inductive OperandShape where
  | nothing
  | below (bound : Nat)
  | aSymbol
deriving DecidableEq, Repr

/-- The operand of each mnemonic (R79; `.word` takes any 16-bit value). -/
def Mnemonic.operandShape : Mnemonic → OperandShape
  | .encInit => .nothing
  | .encByte => .below 256
  | .encFlush => .nothing
  | .decInit => .nothing
  | .decMain => .below 2048
  | .decTail => .below 2048
  | .decNone => .nothing
  | .decEnd => .nothing
  | .lutMsym => .below 2048
  | .lutTsym => .below 2048
  | .lutMidx => .aSymbol
  | .lutTidx => .aSymbol
  | .lutClass => .aSymbol
  | .decSym => .aSymbol
  | .word => .below 65536

/-- The mnemonics that may carry the suffix `.L` (R79): the four decoder symbol commands (R71). -/
def Mnemonic.takesLast : Mnemonic → Bool
  | .decMain => true
  | .decTail => true
  | .decNone => true
  | .decSym => true
  | .encInit => false
  | .encByte => false
  | .encFlush => false
  | .decInit => false
  | .decEnd => false
  | .lutMsym => false
  | .lutTsym => false
  | .lutMidx => false
  | .lutTidx => false
  | .lutClass => false
  | .word => false

/-- The operand written fits the shape the mnemonic asks for. -/
def LineOperand.fits : OperandShape → LineOperand → Bool
  | .nothing, .none => true
  | .below bound, .number n => decide (n < bound)
  | .aSymbol, .symbol _ => true
  | _, _ => false

/-- A source line is well formed (R79): `.L` stands only where it may, and the operand is of the mnemonic's kind and in
its range. -/
def SourceLine.wellFormed (l : SourceLine) : Bool :=
  (!l.last || l.mnemonic.takesLast) && l.operand.fits l.mnemonic.operandShape

/-- The flag `L` of a decoder symbol command, and nothing for every other command (R71, R121). -/
def Instr.lastFlag : Instr → Option Bool
  | .decMain last _ => some last
  | .decTail last _ => some last
  | .decNone last => some last
  | .decSym last => some last
  | .encInit => none
  | .encByte _ => none
  | .encFlush => none
  | .decInit => none
  | .decEnd => none
  | .lutMsym _ => none
  | .lutTsym _ => none
  | .lutMidx => none
  | .lutTidx => none
  | .lutClass => none

/-- `ENC.BYTE* ENC.FLUSH` (R81). -/
def isEncodeBody : List Instr → Bool
  | [.encFlush] => true
  | .encByte _ :: rest => isEncodeBody rest
  | _ => false

/-- An encode stream: `[ENC.INIT] ENC.BYTE* ENC.FLUSH` (R81). -/
def isEncodeStream : List Instr → Bool
  | .encInit :: rest => isEncodeBody rest
  | cmds => isEncodeBody cmds

/-- `S* S.L DEC.END` (R81). -/
def isSymbolRun : List Instr → Bool
  | [] => false
  | [_] => false
  | [i, .decEnd] => i.lastFlag == some true
  | i :: rest => i.lastFlag == some false && isSymbolRun rest

/-- A decode stream: `[DEC.INIT] DEC.END`, or `[DEC.INIT] S* S.L DEC.END` (R81). -/
def isDecodeStream : List Instr → Bool
  | .decInit :: rest => rest == [.decEnd] || isSymbolRun rest
  | cmds => cmds == [.decEnd] || isSymbolRun cmds

end Sys2Proof
end

