-- ==== Sys2Proof/Machine/Assembler.lean ====
section
/-! DEFINITION. The assembler of 30_encoding.md R79: a source line becomes the command word and the `sym_in` the host
presents, or is rejected by name. -/

namespace Sys2Proof.Machine

/-- Why a source line is no command. -/
inductive AsmError where
  /-- `.L` on a mnemonic that takes no flag. -/
  | lastNotAllowed
  /-- The operand is missing, superfluous or of the wrong kind. -/
  | operandKind
  /-- The number is beyond the field. -/
  | operandRange
deriving DecidableEq, Repr

/-- The word of a mnemonic, its flag and its number operand (R79; the number is 0 where the line has none). -/
def lineWord (m : Mnemonic) (last : Bool) (n : Nat) : CmdWord :=
  match m with
  | .encInit => encode .encInit
  | .encByte => encode (.encByte (BitVec.ofNat 8 n))
  | .encFlush => encode .encFlush
  | .decInit => encode .decInit
  | .decMain => encode (.decMain last (BitVec.ofNat 11 n))
  | .decTail => encode (.decTail last (BitVec.ofNat 11 n))
  | .decNone => encode (.decNone last)
  | .decEnd => encode .decEnd
  | .lutMsym => encode (.lutMsym (BitVec.ofNat 11 n))
  | .lutTsym => encode (.lutTsym (BitVec.ofNat 11 n))
  | .lutMidx => encode .lutMidx
  | .lutTidx => encode .lutTidx
  | .lutClass => encode .lutClass
  | .decSym => encode (.decSym last)
  | .word => BitVec.ofNat 16 n

/-- One source line assembled. -/
def assemble (l : SourceLine) : Except AsmError Input :=
  if l.last && !l.mnemonic.takesLast then .error .lastNotAllowed
  else
    match l.mnemonic.operandShape, l.operand with
    | .nothing, .none => .ok (.command (lineWord l.mnemonic l.last 0) Config.idleSymbol)
    | .below bound, .number n =>
      if n < bound then .ok (.command (lineWord l.mnemonic l.last n) Config.idleSymbol) else .error .operandRange
    | .aSymbol, .symbol s => .ok (.command (lineWord l.mnemonic l.last 0) s)
    | _, _ => .error .operandKind

end Sys2Proof.Machine
end

