-- ==== Sys2Proof/Machine/Stream.lean ====
section
/-! DEFINITION. Sequences of commands: the fold of the step over a sequence (20_memory.md R62), the pseudo-instructions
ENCODE, DECODE and DECODE.IDX (30_encoding.md R80), and the packed bit stream that ENCODE regroups (20_memory.md R56). -/

namespace Sys2Proof.Machine

/-- "the state after a command sequence is the fold of the command step function over the sequence, and the output is the
concatenation of the commands' outputs in sequence order" (R62). Each input is presented alone and performed by one
step. -/
def performAll : List Input → State → Host.Outcome (State × List Response) Fault Refusal
  | [], s => .next (s, [])
  | i :: rest, s =>
    match step { s with queue := [i] } with
    | .fault f => .fault f
    | .refused r => .refused r
    | .next t =>
      match performAll rest t with
      | .fault f => .fault f
      | .refused r => .refused r
      | .next (u, out) => .next (u, t.resp.toList ++ out)

/-- What a run's outputs are read as. -/
def outputsOf {α : Type} (read : List Response → α) :
    Host.Outcome (State × List Response) Fault Refusal → Host.Outcome α Fault Refusal
  | .next (_, out) => .next (read out)
  | .fault f => .fault f
  | .refused r => .refused r

/-- A command without a symbol operand, as the host presents it. -/
def Input.ofInstr (i : Instr) : Input := .command (encode i) Config.idleSymbol

/-- The command an input presents, if it is a legal command word (R76). -/
def Input.instr? : Input → Option Instr
  | .reset => none
  | .command w _ => (decode w).toOption

/-- The codes a stream emitted, in order (R106). -/
def emittedCodes (out : List Response) : List Code :=
  (out.map Response.code).filter fun c => c != .none

/-- The symbols a stream emitted, in order: the source's "symbol string" (R106, R158). -/
def emittedSymbols (out : List Response) : List Symbol := out.filterMap Response.symOut

/-- The bytes a stream emitted, in order. -/
def emittedBytes (out : List Response) : List Byte := out.flatMap Response.bytes

/-- The result of a decode stream (R133): the bytes in order if every command ended with `OK`, else the failure and no
bytes. -/
def decodeResult (out : List Response) : Except Status (List Byte) :=
  if out.all fun r => r.status == .ok then .ok (emittedBytes out) else .error .invalidSymbol

/-- Every element with the flag `L`: set on the last one and only there (R80, R210). -/
def flagLast {α : Type} : List α → List (Bool × α)
  | [] => []
  | [a] => [(true, a)]
  | a :: b :: rest => (false, a) :: flagLast (b :: rest)

/-- ENCODE expanded (R80, R106). -/
def encodeCommands (bs : List Byte) : List Instr :=
  .encInit :: bs.map .encByte ++ [.encFlush]

/-- The symbol command a code stands for in DECODE.IDX (R80). -/
def Code.command (last : Bool) : Code → Instr
  | .main idx => .decMain last idx
  | .tail idx => .decTail last idx
  | .none => .decNone last

/-- DECODE.IDX expanded (R80, R133). -/
def decodeIdxCommands (cs : List Code) : List Instr :=
  .decInit :: (flagLast cs).map (fun c => c.2.command c.1) ++ [.decEnd]

/-- DECODE expanded, each symbol on `sym_in` (R80, R133). -/
def decodeInputs (syms : List Symbol) : List Input :=
  Input.ofInstr .decInit :: (flagLast syms).map (fun c => .command (encode (.decSym c.1)) c.2)
    ++ [Input.ofInstr .decEnd]

/-- `ENCODE`, its result as codes (R106). -/
def runEncode (bs : List Byte) (s : State) : Host.Outcome (List Code) Fault Refusal :=
  outputsOf emittedCodes (performAll ((encodeCommands bs).map .ofInstr) s)

/-- `ENCODE`, its result as symbols: `encode(bytes) -> symbol_string` (R19, R106). -/
def runEncodeSymbols (bs : List Byte) (s : State) : Host.Outcome (List Symbol) Fault Refusal :=
  outputsOf emittedSymbols (performAll ((encodeCommands bs).map .ofInstr) s)

/-- `DECODE.IDX` (R133). -/
def runDecodeIdx (cs : List Code) (s : State) : Host.Outcome (Except Status (List Byte)) Fault Refusal :=
  outputsOf decodeResult (performAll ((decodeIdxCommands cs).map .ofInstr) s)

/-- `DECODE`: `decode(symbol_sequence) -> bytes | fails(InvalidSymbol)` (R19, R133). -/
def runDecode (syms : List Symbol) (s : State) : Host.Outcome (Except Status (List Byte)) Fault Refusal :=
  outputsOf decodeResult (performAll (decodeInputs syms) s)

/-! ## The packed bit stream (R56) -/

/-- The bits of a byte, "most-significant-bit first" (R56). -/
def byteBits (b : Byte) : List Bool :=
  [b.getLsbD 7, b.getLsbD 6, b.getLsbD 5, b.getLsbD 4, b.getLsbD 3, b.getLsbD 2, b.getLsbD 1, b.getLsbD 0]

/-- The bit stream of a byte sequence: bit number `8 * j + t` is bit `7 - t` of byte `j` (R56). -/
def bitStream (bs : List Byte) : List Bool := bs.flatMap byteBits

/-- Bits read as a number, the first bit the most significant (R56). -/
def bitsValue (bits : List Bool) : Nat := bits.foldl (fun n b => 2 * n + b.toNat) 0

/-- The code of the last, partial group: a tail symbol for 1 to 3 bits, a main symbol for 4 to 10, nothing for none
(R106). -/
def remainderCode (bits : List Bool) : List Code :=
  if bits.length = 0 then []
  else if bits.length ≤ 3 then [.tail (BitVec.ofNat 11 (bitsValue bits))]
  else [.main (BitVec.ofNat 11 (bitsValue bits))]

/-- The first `k` full groups of a bit stream as main symbols, then what is left (R56, R106). -/
def regroup : Nat → List Bool → List Code
  | 0, bits => remainderCode bits
  | k + 1, bits => .main (BitVec.ofNat 11 (bitsValue (bits.take 11))) :: regroup k (bits.drop 11)

/-- What ENCODE must emit, said by the bit stream alone: "group 0, group 1, ... of the byte sequence's bit stream as main
symbols, followed, when `r = (8 * m) mod 11` is not 0, by one symbol for the last `r` bits" (R106). -/
def packed (bs : List Byte) : List Code := regroup (8 * bs.length / 11) (bitStream bs)

end Sys2Proof.Machine
end

