-- ==== Sys2Proof/Safety.lean ====
section
/-! DEFINITION. The terms in which statements speak of good states and good responses: the invariants of 10_state.md R23
and R28, the shape of the output ports (30_encoding.md R74, R75), and which unit a command belongs to (R38). -/

namespace Sys2Proof.Machine

/-- The encoder invariant: `0 ≤ E.pending ≤ 10` and `E.stage < 2^E.pending` (R23). -/
abbrev Enc.Legal (e : Enc) : Prop := e.pending.toNat ≤ 10 ∧ e.stage.toNat < 2 ^ e.pending.toNat

/-- The decoder invariant: `D.stage < 2^D.pending`; the ranges of `D.pending` and `D.residue` are those of their widths
(R28). -/
abbrev Dec.Legal (d : Dec) : Prop := d.stage.toNat < 2 ^ d.pending.toNat

/-- A response is one the ports can show (R74, R75, R176): an index exactly where `kind` names a table, a symbol only beside
an index, at most two bytes and none beside an index, a status the block drives, and nothing beside a fault. -/
abbrev Response.Legal (r : Response) : Prop :=
  (r.idx = none ↔ r.kind = .none) ∧
  (r.symOut ≠ none → r.kind ≠ .none) ∧
  r.bytes.length ≤ 2 ∧
  (r.bytes ≠ [] → r.kind = .none) ∧
  r.status ≠ .invalidData ∧ r.status ≠ .ioError ∧
  (r.status ≠ .ok → r.kind = .none ∧ r.symOut = none ∧ r.bytes = [])

/-- The invariant every step keeps: both units' registers are legal, and so is the response on the ports. -/
abbrev State.Legal (s : State) : Prop :=
  s.enc.Legal ∧ s.dec.Legal ∧ ∀ r ∈ s.resp, r.Legal

/-- A step that stops: a fault or a refusal. -/
abbrev Stops (o : Host.Outcome State Fault Refusal) : Prop :=
  (∃ f, o = .fault f) ∨ ∃ r, o = .refused r

/-- An input that is a command word of the given unit. -/
def Input.isOf (u : CommandUnit) : Input → Bool
  | .reset => false
  | .command w _ =>
    match decode w with
    | .ok i => decide (i.commandUnit = u)
    | .error _ => false

/-- The status a legal command word ends with, as the table of 60_exceptions.md R172 has it. DEC.SYM ends "as the command
it performs": the search of R156 says which. -/
def statusOf (i : Instr) (s : State) : Status :=
  match i with
  | .encInit => .ok
  | .encByte _ => .ok
  | .encFlush => .ok
  | .decInit => .ok
  | .decMain _ _ => if s.dec.fail then .invalidSymbol else .ok
  | .decTail _ idx => if s.dec.fail ∨ 2 ^ (8 - s.dec.pending.toNat) ≤ idx.toNat then .invalidSymbol else .ok
  | .decNone _ => .invalidSymbol
  | .decEnd => if s.dec.fail then .invalidSymbol else .ok
  | .lutMsym _ => .ok
  | .lutTsym idx => if idx.toNat < Config.tables.tailN then .ok else .tableDefect
  | .lutMidx => .ok
  | .lutTidx => .ok
  | .lutClass => .ok
  | .decSym _ =>
    match Config.tables.mainIdx s.symIn, Config.tables.tailIdx s.symIn with
    | some _, _ => if s.dec.fail then .invalidSymbol else .ok
    | none, some j => if s.dec.fail ∨ 2 ^ (8 - s.dec.pending.toNat) ≤ j.toNat then .invalidSymbol else .ok
    | none, none => .invalidSymbol

/-- Bytes read as one number, the first byte the most significant (R56). -/
def bytesValue (bs : List Byte) : Nat := bs.foldl (fun v b => 256 * v + b.toNat) 0

/-- The response of a decoder command that raises InvalidSymbol (R75, R171). -/
abbrev invalidSymbolResponse : Response :=
  { status := .invalidSymbol, kind := .none, idx := none, symOut := none, bytes := [] }

/-- The response of a command that ends with `OK` and emits only `bs` (R75). -/
abbrev okBytes (bs : List Byte) : Response :=
  { status := .ok, kind := .none, idx := none, symOut := none, bytes := bs }

end Sys2Proof.Machine
end

