-- ==== Sys2Proof/Certificates/Slice0/Obligations.lean ====
section
/-! DEFINITION. The statements for the provers. Each docstring names the rule of spec/ the statement formalises; where a
clause rests on a choice of the spec or of the model, it says so. Registers of states no run reaches are ruled out, where a
rule needs it, by `Enc.Legal` and `Dec.Legal` (10_state.md R23, R28), which every step keeps
(`Obligations.EveryStepKeepsLegalStates`). -/

open Sys2Proof Sys2Proof.Machine

/-! ## Reset and the step -/

/-- 10_state.md R36: "After reset every register of rule R20 is 0". -/
def Obligations.ResetPutsEveryRegisterToZero : Prop :=
  State.reset.enc.stage = 0 ∧ State.reset.enc.pending = 0 ∧
  State.reset.dec.stage = 0 ∧ State.reset.dec.pending = 0 ∧ State.reset.dec.residue = 0 ∧
  State.reset.dec.fail = false

/-- 70_reset_and_hazards.md R200: a reset presented to the block puts every register to 0, and the registers it leaves are
those ENC.INIT and DEC.INIT leave. That a reset stands in the sequence of inputs, and that the ports carry no response
after it, is the model's choice (log entry 4). -/
def Obligations.ResetInputActsAsBothInits : Prop :=
  ∀ (s : State) (rest : List Input), s.queue = .reset :: rest →
    step s = .next { s with
      enc := { stage := 0, pending := 0 }
      dec := { stage := 0, pending := 0, residue := 0, fail := false }
      queue := rest
      resp := none } ∧
    (∃ t u v, step s = .next t ∧ exec .encInit s = .next u ∧ exec .decInit s = .next v ∧
      t.enc = u.enc ∧ t.dec = v.dec)

/-- The state after reset meets the invariant (10_state.md R23, R28: "It holds after reset"). -/
def Obligations.ResetStateIsLegal : Prop := State.reset.Legal

/-- Every step keeps the invariants of both units and of the ports (10_state.md R23, R28; 30_encoding.md R74, R75). -/
def Obligations.EveryStepKeepsLegalStates : Prop :=
  ∀ s t : State, s.Legal → step s = .next t → t.Legal

/-- From a legal state no step stops: every input the host presents is performed (60_exceptions.md R170, R180: a fault is a
status, not a stop; 40_encoder.md R108). -/
def Obligations.LegalStatesNeverStop : Prop :=
  ∀ s : State, s.Legal → ∃ t, step s = .next t

/-- 30_encoding.md R70: the step performs the command the host presents, with its symbol on `sym_in`, and takes it off the
sequence. -/
def Obligations.StepPerformsTheDecodedCommand : Prop :=
  ∀ (s : State) (w : CmdWord) (sym : Symbol) (rest : List Input) (i : Instr),
    s.queue = .command w sym :: rest → decode w = .ok i →
    step s = exec i { s with symIn := sym, queue := rest }

/-- 60_exceptions.md R175: "No register changes, nothing is emitted, `D.fail` is not set", and the status is
IllegalCommand. That the word's symbol then stands on `sym_in` and the word is taken off the sequence is the model's choice
(log entry 4). -/
def Obligations.IllegalWordChangesNoRegister : Prop :=
  ∀ (s : State) (w : CmdWord) (sym : Symbol) (rest : List Input) (e : IllegalWord),
    s.queue = .command w sym :: rest → decode w = .error e →
    step s = .next { s with
      symIn := sym
      queue := rest
      resp := some { status := .illegalCommand, kind := .none, idx := none, symOut := none, bytes := [] } }

/-- 60_exceptions.md R189 and 70_reset_and_hazards.md R200: with nothing presented the block holds its registers. -/
def Obligations.IdleBlockHoldsItsState : Prop :=
  ∀ s : State, s.queue = [] → step s = .next s

/-- 20_memory.md R62, 30_encoding.md R70: presenting a sequence at once and stepping through it leaves the state that the
fold of the step over the sequence leaves. -/
def Obligations.SequencesArePerformedInOrder : Prop :=
  ∀ (ins : List Input) (s t : State) (out : List Response),
    performAll ins s = .next (t, out) →
    Host.Core.run Sys2Proof.core ins.length { s with queue := ins } = .next { t with queue := [] }

/-! ## Encoding -/

/-- Decode and encode agree (30_encoding.md R71 to R73): no bit of an operand is dropped. -/
def Obligations.DecodeOfEncodeIsTheCommand : Prop :=
  ∀ i : Instr, decode (encode i) = .ok i

/-- Encode and decode agree (30_encoding.md R71 to R73): a command has one word. -/
def Obligations.EncodeOfDecodeIsTheWord : Prop :=
  ∀ (w : CmdWord) (i : Instr), decode w = .ok i → encode i = w

/-- 30_encoding.md R73: a word decodes to a command exactly when it selects a row of the opcode map, the row bears the
command's mnemonic, and no word selects two rows. -/
def Obligations.LegalWordsSelectOneRow : Prop :=
  (∀ (w : CmdWord) (r : OpcodeRow), r ∈ opcodeMap → r.selects w = true →
    ∃ i, decode w = .ok i ∧ i.mnemonic = r.mnemonic) ∧
  (∀ (w : CmdWord) (i : Instr), decode w = .ok i →
    ∃ r ∈ opcodeMap, r.selects w = true ∧ r.mnemonic = i.mnemonic) ∧
  (∀ (w : CmdWord) (r₁ r₂ : OpcodeRow), r₁ ∈ opcodeMap → r₂ ∈ opcodeMap →
    r₁.selects w = true → r₂.selects w = true → r₁ = r₂)

/-- 30_encoding.md R76: which words are illegal, said on the numbers `op = cmd[15:12]`, `L = cmd[11]`, `arg = cmd[10:0]`, and
what such a word does: "changes no register and emits nothing; the command ends with `status = IllegalCommand`". The clauses on
`queue` and `symIn` are about the model's own fields and are its choice (log entry 4). -/
def Obligations.IllegalWordsAreTheseAndDoNothing : Prop :=
  (∀ w : CmdWord,
    let op := w.toNat / 4096
    let l := w.toNat / 2048 % 2
    let arg := w.toNat % 2048
    (∃ e, decode w = .error e) ↔
      op = 0x0 ∨ op = 0xF ∨
      (op ∈ [0x1, 0x2, 0x3, 0x4, 0x8, 0x9, 0xA, 0xB, 0xC, 0xD] ∧ l = 1) ∨
      (op ∈ [0x1, 0x3, 0x4, 0x7, 0x8, 0xB, 0xC, 0xD, 0xE] ∧ arg ≠ 0) ∨
      (op = 0x2 ∧ arg / 256 ≠ 0)) ∧
  (∀ (s : State) (w : CmdWord) (sym : Symbol) (rest : List Input) (e : IllegalWord),
    s.queue = .command w sym :: rest → decode w = .error e →
    ∃ t, step s = .next t ∧ t.enc = s.enc ∧ t.dec = s.dec ∧ t.queue = rest ∧ t.symIn = sym ∧
      t.resp = some { status := .illegalCommand, kind := .none, idx := none, symOut := none, bytes := [] })

/-- Words written out from 30_encoding.md R73 and R79 decode to the commands they stand for. -/
def Obligations.WrittenWordsDecode : Prop :=
  decode 0x58FF = .ok (.decMain true 255) ∧ decode 0x2031 = .ok (.encByte 0x31) ∧
  decode 0x3000 = .ok .encFlush ∧ decode 0x6803 = .ok (.decTail true 3) ∧
  decode 0x7000 = .ok (.decNone false) ∧ decode 0x9189 = .ok (.lutMsym 393) ∧
  decode 0xA007 = .ok (.lutTsym 7) ∧ decode 0xE800 = .ok (.decSym true)

/-- 30_encoding.md R79: a well-formed source line assembles to a word of its mnemonic with its flag, number and symbol; an
ill-formed one is rejected. The directive `.word` gives the number itself. -/
def Obligations.WellFormedLinesAssemble : Prop :=
  (∀ l : SourceLine, l.wellFormed = true →
    ∃ w sym, assemble l = .ok (.command w sym) ∧
      (∀ y, l.operand = .symbol y → sym = y) ∧
      (l.mnemonic = .word → ∃ n, l.operand = .number n ∧ w.toNat = n) ∧
      (l.mnemonic ≠ .word → ∃ i, decode w = .ok i ∧ i.mnemonic = l.mnemonic ∧
        (l.mnemonic.takesLast = true → i.lastFlag = some l.last) ∧
        (∀ n, l.operand = .number n → w.toNat % 2048 = n))) ∧
  (∀ l : SourceLine, l.wellFormed = false → ∃ e, assemble l = .error e)

/-! ## The encoder -/

/-- 40_encoder.md R100, ENC.INIT, with its word and everything it leaves alone. -/
def Obligations.EncInitClearsTheEncoder : Prop :=
  encode .encInit = 0x1000 ∧
  ∀ s : State, exec .encInit s = .next { s with
    enc := { stage := 0, pending := 0 }
    resp := some { status := .ok, kind := .none, idx := none, symOut := none, bytes := [] } }

/-- 40_encoder.md R101, ENC.BYTE, with its word, both branches, in exact arithmetic: the group is the pending bits followed by
the top bits of the byte and fits 11 bits; the rest of the byte stays. Everything else is left alone. -/
def Obligations.EncByteTakesOneByte : Prop :=
  (∀ byte : Byte, encode (.encByte byte) = 0x2000 ||| byte.setWidth 16) ∧
  ∀ (s : State) (byte : Byte), s.enc.Legal →
    let p := s.enc.pending.toNat
    let g := s.enc.stage.toNat * 2 ^ (11 - p) + byte.toNat / 2 ^ (p - 3)
    (3 ≤ p → g < 2048 ∧
      exec (.encByte byte) s = .next { s with
        enc := { stage := BitVec.ofNat 10 (byte.toNat % 2 ^ (p - 3)), pending := BitVec.ofNat 4 (p - 3) }
        resp := some {
          status := .ok, kind := .main, idx := some (BitVec.ofNat 11 g)
          symOut := some (Config.tables.mainSym (BitVec.ofNat 11 g)), bytes := [] } }) ∧
    (p ≤ 2 → s.enc.stage.toNat * 256 + byte.toNat < 1024 ∧
      exec (.encByte byte) s = .next { s with
        enc := { stage := BitVec.ofNat 10 (s.enc.stage.toNat * 256 + byte.toNat)
                 pending := BitVec.ofNat 4 (p + 8) }
        resp := some { status := .ok, kind := .none, idx := none, symOut := none, bytes := [] } })

/-- 40_encoder.md R105: "In both branches the new `E.pending` is `(E.pending + 8) mod 11`", and a main symbol is emitted
exactly from 3 pending bits up. -/
def Obligations.EncByteAddsEightModEleven : Prop :=
  ∀ (s : State) (byte : Byte), s.enc.pending.toNat ≤ 10 →
    ∃ t r, exec (.encByte byte) s = .next t ∧ t.resp = some r ∧
      t.enc.pending.toNat = (s.enc.pending.toNat + 8) % 11 ∧
      (r.kind = .main ↔ 3 ≤ s.enc.pending.toNat) ∧ (r.kind = .none ↔ s.enc.pending.toNat ≤ 2)

/-- 40_encoder.md R103: the accumulating branch fits the register, leaves 8 to 10 pending bits, and "is never taken twice in a
row". -/
def Obligations.AccumulatingBranchIsNeverTakenTwice : Prop :=
  ∀ (s : State) (byte : Byte), s.enc.Legal → s.enc.pending.toNat ≤ 2 →
    ∃ t, exec (.encByte byte) s = .next t ∧
      t.enc.stage.toNat = s.enc.stage.toNat * 256 + byte.toNat ∧
      t.enc.pending.toNat = s.enc.pending.toNat + 8 ∧ t.enc.Legal ∧
      ∀ byte' : Byte, ∃ u r, exec (.encByte byte') t = .next u ∧ u.resp = some r ∧ r.kind = .main

/-- 40_encoder.md R104, ENC.FLUSH, with its word: nothing, one tail symbol or one main symbol by the number of pending bits;
the registers return to 0; everything else is left alone. -/
def Obligations.EncFlushEmitsTheRemainder : Prop :=
  encode .encFlush = 0x3000 ∧
  ∀ s : State, s.enc.Legal →
    let i : Index := BitVec.ofNat 11 s.enc.stage.toNat
    let after (r : Response) : State := { s with enc := { stage := 0, pending := 0 }, resp := some r }
    (s.enc.pending.toNat = 0 →
      exec .encFlush s = .next (after
        { status := .ok, kind := .none, idx := none, symOut := none, bytes := [] })) ∧
    (1 ≤ s.enc.pending.toNat → s.enc.pending.toNat ≤ 3 → s.enc.stage.toNat < 8 ∧
      exec .encFlush s = .next (after
        { status := .ok, kind := .tail, idx := some i, symOut := some (Config.tables.tailSym i), bytes := [] })) ∧
    (4 ≤ s.enc.pending.toNat → s.enc.stage.toNat < 1024 ∧
      exec .encFlush s = .next (after
        { status := .ok, kind := .main, idx := some i, symOut := some (Config.tables.mainSym i), bytes := [] }))

/-- The model refuses ENC.BYTE and ENC.FLUSH, and only them, where `E.pending` is 11 to 15 (10_state.md R22: "no rule gives
them a meaning"; 93_implementation_defined.md U7; log entry 7). -/
def Obligations.OnlyUnreachedPendingCountsAreRefused : Prop :=
  ∀ (s : State) (i : Instr),
    (∃ r, exec i s = .refused r) ↔ 10 < s.enc.pending.toNat ∧ (i = .encFlush ∨ ∃ byte, i = .encByte byte)

/-- 40_encoder.md R108: "No ENC command sets a fault, for any register state that satisfies the invariant and any byte". -/
def Obligations.EncoderCommandsEndWithOk : Prop :=
  ∀ (s : State) (i : Instr), s.enc.Legal → i.commandUnit = .enc →
    ∃ t r, exec i s = .next t ∧ t.resp = some r ∧ r.status = .ok ∧ t.dec = s.dec ∧ t.enc.Legal

/-- 40_encoder.md R109, indices the encoder can emit: from ENC.BYTE main indices only and every one of them; from ENC.FLUSH
tail indices 0 to 7 and main indices 0 to 1023 only. -/
def Obligations.EncoderEmitsTheseIndices : Prop :=
  (∀ (s t : State) (byte : Byte) (r : Response), s.enc.Legal → exec (.encByte byte) s = .next t →
    t.resp = some r → r.kind ≠ .tail) ∧
  (∀ g : Index, ∃ (s t : State) (byte : Byte) (r : Response), s.enc.Legal ∧
    exec (.encByte byte) s = .next t ∧ t.resp = some r ∧ r.kind = .main ∧ r.idx = some g) ∧
  (∀ (s t : State) (r : Response) (g : Index), s.enc.Legal → exec .encFlush s = .next t →
    t.resp = some r → r.idx = some g → g.toNat < 2 ^ s.enc.pending.toNat ∧
      ((r.kind = .tail ∧ g.toNat < 8) ∨ (r.kind = .main ∧ g.toNat < 1024)))

/-! ## The decoder -/

/-- 41_decoder.md R120, DEC.INIT, with its word: the four registers 0, the flag among them; everything else is left alone. -/
def Obligations.DecInitClearsTheDecoder : Prop :=
  encode .decInit = 0x4000 ∧
  ∀ s : State, exec .decInit s = .next { s with
    dec := { stage := 0, pending := 0, residue := 0, fail := false }
    resp := some { status := .ok, kind := .none, idx := none, symOut := none, bytes := [] } }

/-- 41_decoder.md R125, DEC.MAIN with `L = 0`: 11 bits join the undelivered ones, one byte leaves, or two from 5 pending bits
up, oldest bits first; everything else is left alone. -/
def Obligations.DecMainNotLastDeliversWholeBytes : Prop :=
  ∀ (s : State) (idx : Index), s.dec.fail = false → s.dec.Legal →
    let p := s.dec.pending.toNat
    let v := s.dec.stage.toNat * 2048 + idx.toNat
    let residue' : BitVec 3 := BitVec.ofNat 3 ((s.dec.residue.toNat + 11) % 8)
    (p ≤ 4 → v / 2 ^ (p + 3) < 256 ∧
      exec (.decMain false idx) s = .next { s with
        dec := { stage := BitVec.ofNat 7 (v % 2 ^ (p + 3)), pending := BitVec.ofNat 3 (p + 3)
                 residue := residue', fail := false }
        resp := some (okBytes [BitVec.ofNat 8 (v / 2 ^ (p + 3))]) }) ∧
    (5 ≤ p → v / 2 ^ (p + 3) < 256 ∧
      exec (.decMain false idx) s = .next { s with
        dec := { stage := BitVec.ofNat 7 (v % 2 ^ (p - 5)), pending := BitVec.ofNat 3 (p - 5)
                 residue := residue', fail := false }
        resp := some (okBytes [BitVec.ofNat 8 (v / 2 ^ (p + 3)), BitVec.ofNat 8 (v / 2 ^ (p - 5) % 256)]) })

/-- 41_decoder.md R123, R126, DEC.MAIN with `L = 1` and an index that fits its width `n = 11 - r`: the bytes emitted followed by
the bits left are the undelivered bits followed by the `n` bits of the index. The premise `idx < 2^n` keeps out the corner of
93_implementation_defined.md U3. -/
def Obligations.DecMainLastDeliversItsMeaningfulBits : Prop :=
  ∀ (s : State) (idx : Index), s.dec.fail = false → s.dec.Legal →
    let r := (s.dec.residue.toNat + 11) % 8
    let n := 11 - r
    idx.toNat < 2 ^ n →
    ∃ (bs : List Byte) (d : Dec),
      exec (.decMain true idx) s = .next { s with dec := d, resp := some (okBytes bs) } ∧
      d.residue.toNat = r ∧ d.fail = false ∧ d.Legal ∧
      8 * bs.length + d.pending.toNat = s.dec.pending.toNat + n ∧
      bytesValue bs * 2 ^ d.pending.toNat + d.stage.toNat = s.dec.stage.toNat * 2 ^ n + idx.toNat

/-- 41_decoder.md R123: DEC.MAIN raises nothing, for every index and flag ("Every main index is accepted at every position"),
and how many bytes it emits depends on `D.pending + n` alone (R124; all that 93_implementation_defined.md U3 lets one rely
on). -/
def Obligations.DecMainNeverFaults : Prop :=
  ∀ (s : State) (last : Bool) (idx : Index), s.dec.fail = false →
    let r := (s.dec.residue.toNat + 11) % 8
    let n := if last then 11 - r else 11
    ∃ (bs : List Byte) (d : Dec),
      exec (.decMain last idx) s = .next { s with dec := d, resp := some (okBytes bs) } ∧
      d.fail = false ∧ d.residue.toNat = r ∧
      bs.length = (s.dec.pending.toNat + n) / 8 ∧ d.pending.toNat = (s.dec.pending.toNat + n) % 8

/-- 41_decoder.md R134: on a stream of main symbols (`D.pending = D.residue`) the last one fills the accumulator to a byte
boundary exactly. -/
def Obligations.LastMainSymbolEndsOnAByte : Prop :=
  ∀ (s : State) (idx : Index), s.dec.fail = false → s.dec.residue = s.dec.pending →
    ∃ (bs : List Byte) (d : Dec),
      exec (.decMain true idx) s = .next { s with dec := d, resp := some (okBytes bs) } ∧
      d.pending = 0 ∧ bs.length = if s.dec.pending.toNat ≤ 4 then 1 else 2

/-- 41_decoder.md R127, R128, DEC.TAIL with an index that fits the bits the byte lacks: exactly one byte leaves and the
accumulator is empty, for both values of the ignored flag `L`; everything else is left alone. That a tail symbol with `L = 0`
is accepted is the spec's decision D11 (93_implementation_defined.md U2; log entry 3). -/
def Obligations.DecTailCompletesTheByte : Prop :=
  ∀ (s : State) (last : Bool) (idx : Index), s.dec.fail = false → s.dec.Legal →
    idx.toNat < 2 ^ (8 - s.dec.pending.toNat) →
    s.dec.stage.toNat * 2 ^ (8 - s.dec.pending.toNat) + idx.toNat < 256 ∧
    exec (.decTail last idx) s = .next { s with
      dec := { stage := 0, pending := 0
               residue := BitVec.ofNat 3 ((s.dec.residue.toNat + 11) % 8), fail := false }
      resp := some (okBytes
        [BitVec.ofNat 8 (s.dec.stage.toNat * 2 ^ (8 - s.dec.pending.toNat) + idx.toNat)]) }

/-- 60_exceptions.md R171 cause (b), R181: a tail index too large raises InvalidSymbol, sets `D.fail`, emits nothing and leaves
`D.stage` and `D.pending`; everything but the decoder is left alone. Nothing is said of `D.residue` (U6). -/
def Obligations.DecTailTooLargeFaults : Prop :=
  ∀ (s : State) (last : Bool) (idx : Index), s.dec.fail = false →
    2 ^ (8 - s.dec.pending.toNat) ≤ idx.toNat →
    ∃ d : Dec, exec (.decTail last idx) s = .next { s with dec := d, resp := some invalidSymbolResponse } ∧
      d.fail = true ∧ d.stage = s.dec.stage ∧ d.pending = s.dec.pending

/-- 41_decoder.md R129, 60_exceptions.md R171 cause (a): DEC.NONE raises InvalidSymbol in every state, sets `D.fail` and emits
nothing; everything but the decoder is left alone. Nothing is said of `D.residue` (U6). -/
def Obligations.DecNoneAlwaysFaults : Prop :=
  encode (.decNone false) = 0x7000 ∧ encode (.decNone true) = 0x7800 ∧
  ∀ (s : State) (last : Bool),
    ∃ d : Dec, exec (.decNone last) s = .next { s with dec := d, resp := some invalidSymbolResponse } ∧
      d.fail = true ∧ d.stage = s.dec.stage ∧ d.pending = s.dec.pending

/-- 41_decoder.md R130, DEC.END: the registers return to 0 and one byte leaves exactly when bits were pending. The byte's value
is 93_implementation_defined.md U4's and is not stated. -/
def Obligations.DecEndClearsTheDecoder : Prop :=
  encode .decEnd = 0x8000 ∧
  ∀ s : State, s.dec.fail = false →
    ∃ bs : List Byte, exec .decEnd s = .next { s with
      dec := { stage := 0, pending := 0, residue := 0, fail := false }, resp := some (okBytes bs) } ∧
      bs.length = if s.dec.pending = 0 then 0 else 1

/-- 41_decoder.md R131: "While `D.fail = 1`, each of DEC.MAIN, DEC.TAIL, DEC.NONE, DEC.SYM and DEC.END changes no register,
emits nothing and ends with `status = InvalidSymbol`", and the commands of the other two units do what they do with
`D.fail = 0`. -/
def Obligations.FailedDecoderIsInert : Prop :=
  (∀ (s : State) (i : Instr), s.dec.fail = true → i.commandUnit = .dec → i ≠ .decInit →
    exec i s = .next { s with resp := some invalidSymbolResponse }) ∧
  (∀ (s t : State) (i : Instr) (f : Bool), i.commandUnit ≠ .dec → exec i s = .next t →
    exec i { s with dec := { s.dec with fail := f } } = .next { t with dec := { t.dec with fail := f } })

/-- 10_state.md R27: "Only DEC.INIT and reset clear it". A step that clears `D.fail` performed a reset or the word of
DEC.INIT. -/
def Obligations.OnlyDecInitAndResetClearFail : Prop :=
  ∀ s t : State, step s = .next t → s.dec.fail = true → t.dec.fail = false →
    ∃ rest, s.queue = .reset :: rest ∨ ∃ sym, s.queue = .command 0x4000 sym :: rest

/-- 60_exceptions.md R171, 10_state.md R27: `D.fail` is set exactly by a command that ends with InvalidSymbol, such a command
is the decoder's, and it emits nothing. -/
def Obligations.InvalidSymbolSetsFail : Prop :=
  ∀ (s t : State) (w : CmdWord) (sym : Symbol) (rest : List Input) (r : Response),
    s.queue = .command w sym :: rest → step s = .next t → t.resp = some r →
    (r.status = .invalidSymbol →
      t.dec.fail = true ∧ r = invalidSymbolResponse ∧ ∃ i, decode w = .ok i ∧ i.commandUnit = .dec) ∧
    (s.dec.fail = false → t.dec.fail = true → r.status = .invalidSymbol)

/-- 60_exceptions.md R172, the whole table: the status each command ends with, for every legal word, and IllegalCommand for
every other word. -/
def Obligations.CommandsEndWithTheseStatuses : Prop :=
  (∀ (s : State) (i : Instr), s.enc.pending.toNat ≤ 10 →
    ∃ t r, exec i s = .next t ∧ t.resp = some r ∧ r.status = statusOf i s) ∧
  (∀ (s : State) (w : CmdWord) (sym : Symbol) (rest : List Input) (e : IllegalWord),
    s.queue = .command w sym :: rest → decode w = .error e →
    ∃ t r, step s = .next t ∧ t.resp = some r ∧ r.status = .illegalCommand)

/-! ## The tables -/

/-- 42_lookup.md R152, LUT.MSYM, with its word; no register changes. -/
def Obligations.LutMsymReadsTheMainTable : Prop :=
  (∀ idx : Index, encode (.lutMsym idx) = 0x9000 ||| idx.setWidth 16) ∧
  ∀ (s : State) (idx : Index), exec (.lutMsym idx) s = .next { s with
    resp := some { status := .ok, kind := .main, idx := some idx
                   symOut := some (Config.tables.mainSym idx), bytes := [] } }

/-- 42_lookup.md R153, LUT.TSYM, with its word: the symbol for an index in range, TableDefect beyond the table; index 7 is
always in range; no register changes. -/
def Obligations.LutTsymReadsTheTailTable : Prop :=
  (∀ idx : Index, encode (.lutTsym idx) = 0xA000 ||| idx.setWidth 16) ∧
  (7 : Index).toNat < Config.tables.tailN ∧
  ∀ (s : State) (idx : Index), exec (.lutTsym idx) s = .next { s with
    resp := some (
      if idx.toNat < Config.tables.tailN then
        { status := .ok, kind := .tail, idx := some idx, symOut := some (Config.tables.tailSym idx), bytes := [] }
      else { status := .tableDefect, kind := .none, idx := none, symOut := none, bytes := [] }) }

/-- 42_lookup.md R154, LUT.MIDX, with its word: the index of the symbol on `sym_in` in the main table, or no answer; a tail
symbol has none; no register changes. -/
def Obligations.LutMidxSearchesTheMainTable : Prop :=
  encode .lutMidx = 0xB000 ∧
  (∀ s : State, exec .lutMidx s = .next { s with
    resp := some { status := .ok
                   kind := if (Config.tables.mainIdx s.symIn).isSome then .main else .none
                   idx := Config.tables.mainIdx s.symIn, symOut := none, bytes := [] } }) ∧
  (∀ (s : State) (j : Index), j.toNat < Config.tables.tailN → s.symIn = Config.tables.tailSym j →
    exec .lutMidx s = .next { s with
      resp := some { status := .ok, kind := .none, idx := none, symOut := none, bytes := [] } })

/-- 42_lookup.md R155, LUT.TIDX, with its word: the index of the symbol on `sym_in` in the tail table, or no answer; a main
symbol has none; no register changes. -/
def Obligations.LutTidxSearchesTheTailTable : Prop :=
  encode .lutTidx = 0xC000 ∧
  (∀ s : State, exec .lutTidx s = .next { s with
    resp := some { status := .ok
                   kind := if (Config.tables.tailIdx s.symIn).isSome then .tail else .none
                   idx := Config.tables.tailIdx s.symIn, symOut := none, bytes := [] } }) ∧
  (∀ (s : State) (i : Index), s.symIn = Config.tables.mainSym i →
    exec .lutTidx s = .next { s with
      resp := some { status := .ok, kind := .none, idx := none, symOut := none, bytes := [] } })

/-- 42_lookup.md R156, LUT.CLASS, with its word: the main table first, the tail table only when the main table does not hold
the symbol, else no answer; no register changes. -/
def Obligations.LutClassSearchesMainThenTail : Prop :=
  encode .lutClass = 0xD000 ∧
  ∀ s : State,
    let after (k : Kind) (i : Option Index) : State :=
      { s with resp := some { status := .ok, kind := k, idx := i, symOut := none, bytes := [] } }
    exec .lutClass s = .next (
      match Config.tables.mainIdx s.symIn with
      | some i => after .main (some i)
      | none =>
        match Config.tables.tailIdx s.symIn with
        | some j => after .tail (some j)
        | none => after .none none)

/-- 42_lookup.md R162: LUT.CLASS undoes the encoder's symbol output, for every entry of both tables. -/
def Obligations.LutClassUndoesTheSymbolOutput : Prop :=
  (∀ (s : State) (i : Index), s.symIn = Config.tables.mainSym i →
    exec .lutClass s = .next { s with
      resp := some { status := .ok, kind := .main, idx := some i, symOut := none, bytes := [] } }) ∧
  (∀ (s : State) (j : Index), j.toNat < Config.tables.tailN → s.symIn = Config.tables.tailSym j →
    exec .lutClass s = .next { s with
      resp := some { status := .ok, kind := .tail, idx := some j, symOut := none, bytes := [] } })

/-- 42_lookup.md R150: every LUT command leaves all six registers unchanged, "and its result depends on its operand and the
tables alone": two states with the same symbol on `sym_in` give the same response. -/
def Obligations.LutCommandsDependOnTheirOperandAlone : Prop :=
  ∀ (s s' : State) (i : Instr), i.commandUnit = .lut → s.symIn = s'.symIn →
    ∃ r : Response, exec i s = .next { s with resp := some r } ∧ exec i s' = .next { s' with resp := some r }

/-- 42_lookup.md R157, DEC.SYM, with its words: it does what DEC.MAIN, DEC.TAIL or DEC.NONE does on the answer of the search,
all in one command. -/
def Obligations.DecSymPerformsTheClassifiedCommand : Prop :=
  encode (.decSym false) = 0xE000 ∧ encode (.decSym true) = 0xE800 ∧
  ∀ (s : State) (last : Bool),
    exec (.decSym last) s =
      match Config.tables.mainIdx s.symIn with
      | some i => exec (.decMain last i) s
      | none =>
        match Config.tables.tailIdx s.symIn with
        | some j => exec (.decTail last j) s
        | none => exec (.decNone last) s

/-- 42_lookup.md R157 on the symbols of the tables: DEC.SYM decodes a main symbol, for both values of the flag `L`, whose index
fits its width `n` (11 bits, or `11 - r` when last), and a tail symbol that fits the bits the byte lacks, for both values of
`L`; everything but the decoder and the response is left alone. The premise `i < 2^n` always holds when not last (R125) and
keeps out the corner of 93_implementation_defined.md U3 when last. That a tail symbol with `L = 0` is accepted is the spec's
decision D11 (93_implementation_defined.md U2; log entry 3). -/
def Obligations.DecSymDecodesTheTablesSymbols : Prop :=
  (∀ (s : State) (last : Bool) (i : Index), s.dec.fail = false → s.dec.Legal → s.symIn = Config.tables.mainSym i →
    let r := (s.dec.residue.toNat + 11) % 8
    let n := if last then 11 - r else 11
    i.toNat < 2 ^ n →
    ∃ (bs : List Byte) (d : Dec),
      exec (.decSym last) s = .next { s with dec := d, resp := some (okBytes bs) } ∧
      d.fail = false ∧ d.residue.toNat = r ∧ d.Legal ∧
      8 * bs.length + d.pending.toNat = s.dec.pending.toNat + n ∧
      bytesValue bs * 2 ^ d.pending.toNat + d.stage.toNat = s.dec.stage.toNat * 2 ^ n + i.toNat) ∧
  (∀ (s : State) (last : Bool) (j : Index), s.dec.fail = false → s.dec.Legal →
    j.toNat < Config.tables.tailN → s.symIn = Config.tables.tailSym j →
    j.toNat < 2 ^ (8 - s.dec.pending.toNat) →
    exec (.decSym last) s = .next { s with
      dec := { stage := 0, pending := 0
               residue := BitVec.ofNat 3 ((s.dec.residue.toNat + 11) % 8), fail := false }
      resp := some (okBytes
        [BitVec.ofNat 8 (s.dec.stage.toNat * 2 ^ (8 - s.dec.pending.toNat) + j.toNat)]) })

/-! ## The whole machine -/

/-- 10_state.md R38: "no encoder command reads or writes a decoder register and the reverse": what a command leaves alone, and
that its effect on its own unit and on the ports does not depend on the other unit. -/
def Obligations.CommandsOfOneUnitIgnoreTheOther : Prop :=
  (∀ (s t : State) (i : Instr) (d : Dec), i.commandUnit = .enc → exec i s = .next t →
    t.dec = s.dec ∧ t.symIn = s.symIn ∧ t.queue = s.queue ∧
    exec i { s with dec := d } = .next { t with dec := d }) ∧
  (∀ (s t : State) (i : Instr) (e : Enc), i.commandUnit = .dec → exec i s = .next t →
    t.enc = s.enc ∧ t.symIn = s.symIn ∧ t.queue = s.queue ∧
    exec i { s with enc := e } = .next { t with enc := e })

/-- 10_state.md R38: an encode stream and a decode stream may be interleaved "in any way, and neither sees the other": each
unit ends as if its own commands had been performed alone, and emits the same outputs. -/
def Obligations.InterleavedStreamsAreIndependent : Prop :=
  ∀ (ins : List Input) (s : State), s.Legal →
    (∀ x ∈ ins, x.isOf .enc = true ∨ x.isOf .dec = true) →
    ∃ (t te td : State) (out oute outd : List Response),
      performAll ins s = .next (t, out) ∧
      performAll (ins.filter (Input.isOf .enc)) s = .next (te, oute) ∧
      performAll (ins.filter (Input.isOf .dec)) s = .next (td, outd) ∧
      t.enc = te.enc ∧ t.dec = td.dec ∧
      emittedCodes out = emittedCodes oute ∧ emittedSymbols out = emittedSymbols oute ∧
      emittedBytes out = emittedBytes outd

/-- 70_reset_and_hazards.md R201: the initial state is the same after reset, after ENC.INIT or DEC.INIT, after ENC.FLUSH, and
after a DEC.END performed with `D.fail = 0`. -/
def Obligations.InitialStateIsTheSameAtFourPoints : Prop :=
  ∀ s : State,
    (∃ t, exec .encInit s = .next t ∧ t.enc = State.reset.enc) ∧
    (∃ t, exec .decInit s = .next t ∧ t.dec = State.reset.dec) ∧
    (s.enc.pending.toNat ≤ 10 → ∃ t, exec .encFlush s = .next t ∧ t.enc = State.reset.enc) ∧
    (s.dec.fail = false → ∃ t, exec .decEnd s = .next t ∧ t.dec = State.reset.dec)

/-- 60_exceptions.md R176: the codes of `status`, and that the block drives 0, 1, 4 and 5 only. -/
def Obligations.OnlyFourStatusCodesAreDriven : Prop :=
  Status.ok.port = 0 ∧ Status.invalidSymbol.port = 1 ∧ Status.invalidData.port = 2 ∧
  Status.ioError.port = 3 ∧ Status.tableDefect.port = 4 ∧ Status.illegalCommand.port = 5 ∧
  ∀ (s t : State) (w : CmdWord) (sym : Symbol) (rest : List Input),
    s.queue = .command w sym :: rest → step s = .next t →
    ∃ r, t.resp = some r ∧
      (r.status.port = 0 ∨ r.status.port = 1 ∨ r.status.port = 4 ∨ r.status.port = 5)

/-! ## Streams -/

/-- 10_state.md R23: within one stream, after `k` bytes `E.pending = (8 * k) mod 11`. -/
def Obligations.PendingAfterKBytes : Prop :=
  ∀ (bs : List Byte) (s : State), s.enc = { stage := 0, pending := 0 } →
    ∃ t out, performAll (bs.map fun b => .ofInstr (.encByte b)) s = .next (t, out) ∧
      t.enc.Legal ∧ t.enc.pending.toNat = 8 * bs.length % 11 ∧ t.dec = s.dec

/-- 10_state.md R28, 41_decoder.md R134: after `j` main symbols not flagged last, `D.pending = D.residue = (3 * j) mod 8`, and
`floor(11 * j / 8)` bytes were emitted. -/
def Obligations.PendingEqualsResidueOnMainStreams : Prop :=
  ∀ (idxs : List Index) (s : State), s.dec = { stage := 0, pending := 0, residue := 0, fail := false } →
    ∃ t out, performAll (idxs.map fun i => .ofInstr (.decMain false i)) s = .next (t, out) ∧
      t.dec.Legal ∧ t.dec.fail = false ∧
      t.dec.pending.toNat = 3 * idxs.length % 8 ∧ t.dec.residue.toNat = 3 * idxs.length % 8 ∧
      (emittedBytes out).length = 11 * idxs.length / 8 ∧ t.enc = s.enc

/-- 40_encoder.md R106, 20_memory.md R56: ENCODE, from any state, never fails, and emits the groups of the byte sequence's bit
stream as main symbols, followed by one symbol for the last `r` bits; through the tables, the symbols that stand for
them. -/
def Obligations.EncodeEmitsThePackedBitStream : Prop :=
  ∀ (bs : List Byte) (s : State),
    runEncode bs s = .next (packed bs) ∧ runEncodeSymbols bs s = .next ((packed bs).filterMap Code.symbol)

/-- 40_encoder.md R107: count and kind of the symbols of ENCODE on `m` bytes. -/
def Obligations.EncodeSymbolCountAndKinds : Prop :=
  ∀ (bs : List Byte) (s : State), ∃ cs, runEncode bs s = .next cs ∧
    let m := bs.length
    let r := 8 * m % 11
    cs.length = (8 * m + 10) / 11 ∧
    (∀ c ∈ cs.take (8 * m / 11), c.kind = .main) ∧
    (r = 0 → cs.drop (8 * m / 11) = []) ∧
    (1 ≤ r → r ≤ 3 → ∃ i, cs.drop (8 * m / 11) = [.tail i]) ∧
    (4 ≤ r → ∃ i, cs.drop (8 * m / 11) = [.main i])

/-- 41_decoder.md R136, at index level: DECODE.IDX of ENCODE gives the bytes back, from any two states. -/
def Obligations.DecodeIdxOfEncodeReturnsTheBytes : Prop :=
  ∀ (bs : List Byte) (s s' : State), ∃ cs, runEncode bs s = .next cs ∧ runDecodeIdx cs s' = .next (.ok bs)

/-- 41_decoder.md R136, through the symbols: DECODE of ENCODE gives the bytes back, for all tables that meet I1 to I3. -/
def Obligations.DecodeOfEncodeReturnsTheBytes : Prop :=
  ∀ (bs : List Byte) (s s' : State),
    ∃ syms, runEncodeSymbols bs s = .next syms ∧ runDecode syms s' = .next (.ok bs)

/-- 41_decoder.md R135: on every encoder-produced stream the decoder reaches DEC.END with `D.pending = 0` and `D.fail = 0`, and
DEC.END emits nothing. -/
def Obligations.DecEndIsSilentAfterEncodedStreams : Prop :=
  ∀ (bs : List Byte) (s s' : State), ∃ cs, runEncode bs s = .next cs ∧
    ∃ t out u, performAll ((decodeIdxCommands cs).dropLast.map .ofInstr) s' = .next (t, out) ∧
      t.dec.pending = 0 ∧ t.dec.fail = false ∧ emittedBytes out = bs ∧
      exec .decEnd t = .next u ∧ u.resp = some (okBytes [])

/-- 41_decoder.md R129, R133 (the source's property S5): DECODE answers on every symbol sequence, the failure InvalidSymbol or
bytes, and bytes only if every symbol of the sequence is in a table: a sequence that holds a symbol of neither table does not
decode. Said without assuming that such a symbol exists, since the type of the symbols is a parameter (00_scope.md R9). -/
def Obligations.DecodeRejectsForeignSymbols : Prop :=
  ∀ (syms : List Symbol) (s : State),
    runDecode syms s = .next (.error .invalidSymbol) ∨
    ∃ bs, runDecode syms s = .next (.ok bs) ∧
      ∀ x ∈ syms, Config.tables.mainIdx x ≠ none ∨ Config.tables.tailIdx x ≠ none

/-- 30_encoding.md R80, R81: the expansions of ENCODE, DECODE.IDX and DECODE are streams of the shape R81 asks of the host, with
and without their leading INIT, and the INIT may be left out from the unit's initial state. The inputs of DECODE are the words
of a list of commands, each with its symbol on `sym_in`. -/
def Obligations.PseudoInstructionsAreWellShaped : Prop :=
  (∀ bs : List Byte, isEncodeStream (encodeCommands bs) = true ∧ isEncodeStream (encodeCommands bs).tail = true) ∧
  (∀ cs : List Code, isDecodeStream (decodeIdxCommands cs) = true ∧
    isDecodeStream (decodeIdxCommands cs).tail = true) ∧
  (∀ syms : List Symbol, ∃ cmds : List Instr, (decodeInputs syms).map Input.instr? = cmds.map some ∧
    isDecodeStream cmds = true ∧ isDecodeStream cmds.tail = true) ∧
  (∀ (bs : List Byte) (s : State), s.enc = { stage := 0, pending := 0 } →
    outputsOf emittedCodes (performAll ((encodeCommands bs).tail.map .ofInstr) s) = runEncode bs s) ∧
  (∀ (cs : List Code) (s : State), s.dec = { stage := 0, pending := 0, residue := 0, fail := false } →
    outputsOf decodeResult (performAll ((decodeIdxCommands cs).tail.map .ofInstr) s) = runDecodeIdx cs s) ∧
  (∀ (syms : List Symbol) (s : State), s.dec = { stage := 0, pending := 0, residue := 0, fail := false } →
    outputsOf decodeResult (performAll (decodeInputs syms).tail s) = runDecode syms s)
end

