-- ==== Sys2Proof/Laws/Config.lean ====
section
/-! SUPPORT. What the invariants I1 to I3 of the tables (20_memory.md R53) give the searches. -/

namespace Sys2Proof.Machine

/-- I1: no symbol stands at two main indices. -/
theorem mainSym_injective {i j : Index} (h : Config.tables.mainSym i = Config.tables.mainSym j) : i = j := by
  have := Config.tables.mainIdx_mainSym i
  rw [h, Config.tables.mainIdx_mainSym j] at this
  exact (Option.some.inj this).symm

/-- I3: the tail table's symbols are not in the main table. -/
theorem mainIdx_tailSym {j : Index} (h : j.toNat < Config.tables.tailN) :
    Config.tables.mainIdx (Config.tables.tailSym j) = none := by
  rcases Config.tables.disjoint (Config.tables.tailSym j) with hm | ht
  · exact hm
  · rw [Config.tables.tailIdx_tailSym j h] at ht; cases ht

/-- I3: the main table's symbols are not in the tail table. -/
theorem tailIdx_mainSym (i : Index) : Config.tables.tailIdx (Config.tables.mainSym i) = none := by
  rcases Config.tables.disjoint (Config.tables.mainSym i) with hm | ht
  · rw [Config.tables.mainIdx_mainSym i] at hm; cases hm
  · exact ht

/-- Everything `classify` can answer, and when (R156). -/
theorem classify_cases (sym : Symbol) :
    (∃ i, Config.tables.mainIdx sym = some i ∧ classify sym = .main i) ∨
    (∃ j, Config.tables.mainIdx sym = none ∧ Config.tables.tailIdx sym = some j ∧ classify sym = .tail j) ∨
    (Config.tables.mainIdx sym = none ∧ Config.tables.tailIdx sym = none ∧ classify sym = .none) := by
  unfold classify
  rcases hm : Config.tables.mainIdx sym with _ | i
  · rcases ht : Config.tables.tailIdx sym with _ | j
    · exact .inr (.inr ⟨rfl, rfl, rfl⟩)
    · exact .inr (.inl ⟨j, rfl, rfl, rfl⟩)
  · exact .inl ⟨i, rfl, rfl⟩

@[simp] theorem classify_mainSym (i : Index) : classify (Config.tables.mainSym i) = .main i := by
  simp [classify, Config.tables.mainIdx_mainSym]

theorem classify_tailSym {j : Index} (h : j.toNat < Config.tables.tailN) :
    classify (Config.tables.tailSym j) = .tail j := by
  simp [classify, mainIdx_tailSym h, Config.tables.tailIdx_tailSym j h]

end Sys2Proof.Machine
end

