-- ==== Sys2Proof/Laws/Encoding.lean ====
section
/-! SUPPORT. The fields of a command word (30_encoding.md R71): each field read back from the word that was put together
from them, and masks taken field by field. -/

namespace Sys2Proof.Machine

@[simp] theorem opField_cmdWord (op : BitVec 4) (l : Bool) (a : Index) : opField (cmdWord op l a) = op := by
  apply BitVec.eq_of_getLsbD_eq
  intro i hi
  simp only [opField, cmdWord, BitVec.getLsbD_extractLsb', BitVec.getLsbD_append, BitVec.getLsbD_ofBool]
  have h1 : ¬ 12 + i < 11 := by omega
  have h2 : ¬ 12 + i - 11 < 1 := by omega
  have h3 : 12 + i - 11 - 1 = i := by omega
  simp [hi, h1, h2, h3]

@[simp] theorem lastField_cmdWord (op : BitVec 4) (l : Bool) (a : Index) : lastField (cmdWord op l a) = l := by
  simp only [lastField, cmdWord, BitVec.getLsbD_append, BitVec.getLsbD_ofBool]
  simp

@[simp] theorem argField_cmdWord (op : BitVec 4) (l : Bool) (a : Index) : argField (cmdWord op l a) = a := by
  apply BitVec.eq_of_getLsbD_eq
  intro i hi
  simp only [argField, cmdWord, BitVec.getLsbD_extractLsb', BitVec.getLsbD_append]
  simp [hi]

@[simp] theorem byteField_cmdWord (op : BitVec 4) (l : Bool) (a : Index) :
    byteField (cmdWord op l a) = a.setWidth 8 := by
  apply BitVec.eq_of_getLsbD_eq
  intro i hi
  have h : i < 11 := by omega
  simp only [byteField, cmdWord, BitVec.getLsbD_extractLsb', BitVec.getLsbD_append]
  simp [hi, h]

@[simp] theorem byteGuardField_cmdWord (op : BitVec 4) (l : Bool) (a : Index) :
    byteGuardField (cmdWord op l a) = a.extractLsb' 8 3 := by
  apply BitVec.eq_of_getLsbD_eq
  intro i hi
  have h : 8 + i < 11 := by omega
  simp only [byteGuardField, cmdWord, BitVec.getLsbD_extractLsb', BitVec.getLsbD_append]
  simp [hi, h]

/-- A mask that covers the whole opcode acts on the fields one by one. -/
theorem cmdWord_and (op : BitVec 4) (l lm : Bool) (a am : Index) :
    cmdWord op l a &&& cmdWord 0xF lm am = cmdWord op (l && lm) (a &&& am) := by
  apply BitVec.eq_of_getLsbD_eq
  intro i hi
  simp only [cmdWord, BitVec.getLsbD_and, BitVec.getLsbD_append, BitVec.getLsbD_ofBool]
  by_cases h1 : i < 11
  · simp [h1]
  · by_cases h2 : i - 11 < 1
    · have h0 : i - 11 = 0 := by omega
      simp [h1, h0]
    · have h3 : i - 11 - 1 < 4 := by omega
      have h4 : (15#4).getLsbD (i - 11 - 1) = true := by
        generalize i - 11 - 1 = k at h3
        interval_cases k <;> decide
      simp only [h1, h2, if_false]
      rw [show (0xF : BitVec 4) = 15#4 from rfl, h4, Bool.and_true]

end Sys2Proof.Machine
end

