-- ==== Sys2Proof/Laws/State.lean ====
section
/-! SUPPORT. One lemma per field per update of the state, so that no later proof unfolds a record update. -/

namespace Sys2Proof.Machine

@[simp] theorem State.respond_enc (s : State) (r : Response) : (s.respond r).enc = s.enc := rfl
@[simp] theorem State.respond_dec (s : State) (r : Response) : (s.respond r).dec = s.dec := rfl
@[simp] theorem State.respond_symIn (s : State) (r : Response) : (s.respond r).symIn = s.symIn := rfl
@[simp] theorem State.respond_queue (s : State) (r : Response) : (s.respond r).queue = s.queue := rfl
@[simp] theorem State.respond_resp (s : State) (r : Response) : (s.respond r).resp = some r := rfl

@[simp] theorem State.withEnc_enc (s : State) (e : Enc) : (s.withEnc e).enc = e := rfl
@[simp] theorem State.withEnc_dec (s : State) (e : Enc) : (s.withEnc e).dec = s.dec := rfl
@[simp] theorem State.withEnc_symIn (s : State) (e : Enc) : (s.withEnc e).symIn = s.symIn := rfl
@[simp] theorem State.withEnc_queue (s : State) (e : Enc) : (s.withEnc e).queue = s.queue := rfl
@[simp] theorem State.withEnc_resp (s : State) (e : Enc) : (s.withEnc e).resp = s.resp := rfl

@[simp] theorem State.withDec_enc (s : State) (d : Dec) : (s.withDec d).enc = s.enc := rfl
@[simp] theorem State.withDec_dec (s : State) (d : Dec) : (s.withDec d).dec = d := rfl
@[simp] theorem State.withDec_symIn (s : State) (d : Dec) : (s.withDec d).symIn = s.symIn := rfl
@[simp] theorem State.withDec_queue (s : State) (d : Dec) : (s.withDec d).queue = s.queue := rfl
@[simp] theorem State.withDec_resp (s : State) (d : Dec) : (s.withDec d).resp = s.resp := rfl

@[simp] theorem State.raise_enc (s : State) (st : Status) : (s.raise st).enc = s.enc := rfl
@[simp] theorem State.raise_dec (s : State) (st : Status) : (s.raise st).dec = s.dec := rfl
@[simp] theorem State.raise_symIn (s : State) (st : Status) : (s.raise st).symIn = s.symIn := rfl
@[simp] theorem State.raise_queue (s : State) (st : Status) : (s.raise st).queue = s.queue := rfl
@[simp] theorem State.raise_resp (s : State) (st : Status) : (s.raise st).resp = some (.fault st) := rfl

@[simp] theorem State.raiseInvalidSymbol_enc (s : State) (d : Dec) : (s.raiseInvalidSymbol d).enc = s.enc := rfl
@[simp] theorem State.raiseInvalidSymbol_dec (s : State) (d : Dec) :
    (s.raiseInvalidSymbol d).dec = { d with fail := true } := rfl
@[simp] theorem State.raiseInvalidSymbol_symIn (s : State) (d : Dec) :
    (s.raiseInvalidSymbol d).symIn = s.symIn := rfl
@[simp] theorem State.raiseInvalidSymbol_queue (s : State) (d : Dec) :
    (s.raiseInvalidSymbol d).queue = s.queue := rfl
@[simp] theorem State.raiseInvalidSymbol_resp (s : State) (d : Dec) :
    (s.raiseInvalidSymbol d).resp = some (.fault .invalidSymbol) := rfl

@[simp] theorem State.startDecodeStream_enc (s : State) : s.startDecodeStream.enc = s.enc := rfl
@[simp] theorem State.startDecodeStream_dec (s : State) : s.startDecodeStream.dec = .initial := rfl
@[simp] theorem State.startDecodeStream_symIn (s : State) : s.startDecodeStream.symIn = s.symIn := rfl
@[simp] theorem State.startDecodeStream_queue (s : State) : s.startDecodeStream.queue = s.queue := rfl

@[simp] theorem State.applyReset_enc (s : State) : s.applyReset.enc = .initial := rfl
@[simp] theorem State.applyReset_dec (s : State) : s.applyReset.dec = .initial := rfl
@[simp] theorem State.applyReset_symIn (s : State) : s.applyReset.symIn = s.symIn := rfl
@[simp] theorem State.applyReset_queue (s : State) : s.applyReset.queue = s.queue := rfl
@[simp] theorem State.applyReset_resp (s : State) : s.applyReset.resp = none := rfl

@[simp] theorem State.advance_enc (s : State) (q : List Input) : (s.advance q).enc = s.enc := rfl
@[simp] theorem State.advance_dec (s : State) (q : List Input) : (s.advance q).dec = s.dec := rfl
@[simp] theorem State.advance_symIn (s : State) (q : List Input) : (s.advance q).symIn = s.symIn := rfl
@[simp] theorem State.advance_queue (s : State) (q : List Input) : (s.advance q).queue = q := rfl
@[simp] theorem State.advance_resp (s : State) (q : List Input) : (s.advance q).resp = s.resp := rfl

@[simp] theorem State.present_enc (s : State) (y : Symbol) (q : List Input) : (s.present y q).enc = s.enc := rfl
@[simp] theorem State.present_dec (s : State) (y : Symbol) (q : List Input) : (s.present y q).dec = s.dec := rfl
@[simp] theorem State.present_symIn (s : State) (y : Symbol) (q : List Input) : (s.present y q).symIn = y := rfl
@[simp] theorem State.present_queue (s : State) (y : Symbol) (q : List Input) : (s.present y q).queue = q := rfl
@[simp] theorem State.present_resp (s : State) (y : Symbol) (q : List Input) : (s.present y q).resp = s.resp := rfl

@[simp] theorem Dec.advanceResidue_stage (d : Dec) : d.advanceResidue.stage = d.stage := rfl
@[simp] theorem Dec.advanceResidue_pending (d : Dec) : d.advanceResidue.pending = d.pending := rfl
@[simp] theorem Dec.advanceResidue_fail (d : Dec) : d.advanceResidue.fail = d.fail := rfl
@[simp] theorem Dec.append_residue (d : Dec) (n v : Nat) : (d.append n v).1.residue = d.residue := rfl
@[simp] theorem Dec.append_fail (d : Dec) (n v : Nat) : (d.append n v).1.fail = d.fail := rfl

end Sys2Proof.Machine
end

