-- ==== Sys2Proof/Laws/Ops.lean ====
section
/-! SUPPORT. One lemma per shared operation that says everything the operation can do; later proofs cite these instead of
unfolding the operations. -/

namespace Sys2Proof.Machine

/-- The two branches of ENC.BYTE (R101): a group completes, or the byte joins the accumulator. -/
theorem Enc.takeByte_cases (e : Enc) (b : Byte) :
    (3 ≤ e.pending.toNat ∧
      e.takeByte b =
        ({ stage := BitVec.ofNat 10 (b.toNat &&& (2 ^ (8 - (11 - e.pending.toNat)) - 1)),
           pending := BitVec.ofNat 4 (8 - (11 - e.pending.toNat)) },
         .main (BitVec.ofNat 11
          ((e.stage.toNat <<< (11 - e.pending.toNat)) ||| (b.toNat >>> (8 - (11 - e.pending.toNat))))))) ∨
    (e.pending.toNat ≤ 2 ∧
      e.takeByte b =
        ({ stage := BitVec.ofNat 10 ((e.stage.toNat <<< 8) ||| b.toNat),
           pending := BitVec.ofNat 4 (e.pending.toNat + 8) }, .none)) := by
  by_cases h : 11 - e.pending.toNat ≤ 8
  · exact .inl ⟨by omega, by simp [Enc.takeByte, h]⟩
  · exact .inr ⟨by omega, by simp [Enc.takeByte, h]⟩

/-- The three branches of ENC.FLUSH (R104). -/
theorem Enc.remainder_cases (e : Enc) :
    (e.pending.toNat = 0 ∧ e.remainder = .none) ∨
    (1 ≤ e.pending.toNat ∧ e.pending.toNat ≤ 3 ∧ e.remainder = .tail (e.stage.setWidth 11)) ∨
    (4 ≤ e.pending.toNat ∧ e.remainder = .main (e.stage.setWidth 11)) := by
  by_cases h0 : e.pending = 0
  · exact .inl ⟨by simp [h0], by simp [Enc.remainder, h0]⟩
  · have hne : e.pending.toNat ≠ 0 := fun h => h0 (BitVec.eq_of_toNat_eq (by simpa using h))
    by_cases h3 : e.pending.toNat ≤ 3
    · exact .inr (.inl ⟨by omega, h3, by simp only [Enc.remainder, h0, h3, if_true, if_false]⟩)
    · exact .inr (.inr ⟨by omega, by simp only [Enc.remainder, h0, h3, if_false]⟩)

@[simp] theorem Enc.outOfRange_eq_false {e : Enc} : e.outOfRange = false ↔ e.pending.toNat ≤ 10 := by
  simp [Enc.outOfRange]

@[simp] theorem Enc.outOfRange_eq_true {e : Enc} : e.outOfRange = true ↔ 10 < e.pending.toNat := by
  simp [Enc.outOfRange]

/-- The emission loop of R124 on at most 23 pending bits: no byte, one byte or two, the oldest bits first. -/
theorem drain_two_cases (wide pending : Nat) (h : pending < 24) :
    (pending < 8 ∧ drain 2 wide pending = ([], pending)) ∨
    (8 ≤ pending ∧ pending < 16 ∧
      drain 2 wide pending = ([BitVec.ofNat 8 (wide >>> (pending - 8))], pending - 8)) ∨
    (16 ≤ pending ∧
      drain 2 wide pending =
        ([BitVec.ofNat 8 (wide >>> (pending - 8)), BitVec.ofNat 8 (wide >>> (pending - 16))], pending - 16)) := by
  by_cases h8 : 8 ≤ pending
  · by_cases h16 : 8 ≤ pending - 8
    · have : pending - 8 - 8 = pending - 16 := by omega
      exact .inr (.inr ⟨by omega, by simp [drain, h8, h16, this]⟩)
    · exact .inr (.inl ⟨h8, by omega, by simp [drain, h8, h16]⟩)
  · exact .inl ⟨by omega, by simp [drain, h8]⟩

/-- How many bytes the loop emits and how many bits it leaves. -/
theorem drain_two_counts (wide pending : Nat) (h : pending < 24) :
    (drain 2 wide pending).1.length = pending / 8 ∧ (drain 2 wide pending).2 = pending % 8 := by
  rcases drain_two_cases wide pending h with ⟨h1, e⟩ | ⟨h1, h2, e⟩ | ⟨h1, e⟩ <;>
    rw [e] <;> constructor <;> simp <;> omega

/-- `append` emits the whole bytes and keeps the rest (R124), for every `n ≤ 11`. -/
theorem Dec.append_counts (d : Dec) (n value : Nat) (hn : n ≤ 11) :
    (d.append n value).2.length = (d.pending.toNat + n) / 8 ∧
    (d.append n value).1.pending.toNat = (d.pending.toNat + n) % 8 := by
  have hp := d.pending.isLt
  have hd := drain_two_counts ((d.stage.toNat <<< n) ||| value) (d.pending.toNat + n) (by omega)
  refine ⟨hd.1, ?_⟩
  simp only [Dec.append, BitVec.toNat_ofNat, hd.2]
  omega

/-- `append` leaves nothing above the pending bits (R24, R124). -/
theorem Dec.append_stage_lt (d : Dec) (n value : Nat) (hn : n ≤ 11) :
    (d.append n value).1.stage.toNat < 2 ^ (d.append n value).1.pending.toNat := by
  have hp := d.pending.isLt
  have hd := drain_two_counts ((d.stage.toNat <<< n) ||| value) (d.pending.toNat + n) (by omega)
  rw [(Dec.append_counts d n value hn).2]
  simp only [Dec.append, hd.2, BitVec.toNat_ofNat, Nat.and_two_pow_sub_one_eq_mod]
  exact lt_of_le_of_lt (Nat.mod_le _ _) (Nat.mod_lt _ (Nat.two_pow_pos _))

theorem Dec.mainWidth_le (d : Dec) (last : Bool) : d.mainWidth last ≤ 11 := by
  unfold Dec.mainWidth; split <;> omega

theorem Dec.need_le (d : Dec) : d.need ≤ 8 := by unfold Dec.need; omega

@[simp] theorem Config.strictTail_eq : Config.strictTail = false := rfl

/-- DEC.TAIL's check at the normative `STRICT_TAIL` (R127, U2): accepted exactly when the index fits. -/
theorem State.takeTail_cases (s : State) (last : Bool) (idx : Index) :
    (idx.toNat < 2 ^ s.dec.need ∧
      State.takeTail Config.strictTail s last idx =
        (s.withDec (s.dec.advanceResidue.append s.dec.need idx.toNat).1).respond
          (.ofBytes (s.dec.advanceResidue.append s.dec.need idx.toNat).2)) ∨
    (2 ^ s.dec.need ≤ idx.toNat ∧
      State.takeTail Config.strictTail s last idx = s.raiseInvalidSymbol s.dec.advanceResidue) := by
  have hneed : s.dec.advanceResidue.need = s.dec.need := rfl
  by_cases h : 2 ^ s.dec.need ≤ idx.toNat
  · exact .inr ⟨h, by simp [State.takeTail, hneed, h]⟩
  · exact .inl ⟨by omega, by simp [State.takeTail, hneed, h]⟩

/-- The flag check of every decoder command but DEC.INIT (R131). -/
theorem State.whileLive_failed (s : State) (live : State → State) (h : s.dec.fail = true) :
    s.whileLive live = s.raise .invalidSymbol := by simp [State.whileLive, State.failed, h]

theorem State.whileLive_live (s : State) (live : State → State) (h : s.dec.fail = false) :
    s.whileLive live = live s := by simp [State.whileLive, State.failed, h]

/-- What one step can do: hold, perform a reset, perform a legal command, or reject an illegal word. -/
theorem step_cases (s : State) :
    (s.queue = [] ∧ step s = .next s) ∨
    (∃ rest, s.queue = .reset :: rest ∧ step s = .next (s.advance rest).applyReset) ∨
    (∃ w sym rest i, s.queue = .command w sym :: rest ∧ decode w = .ok i ∧
      step s = exec i (s.present sym rest)) ∨
    (∃ w sym rest e, s.queue = .command w sym :: rest ∧ decode w = .error e ∧
      step s = .next (s.present sym rest).illegal) := by
  rcases hq : s.queue with _ | ⟨x, rest⟩
  · exact .inl ⟨rfl, by simp [step, hq]⟩
  · rcases x with ⟨w, sym⟩ | _
    · rcases hd : decode w with e | i
      · exact .inr (.inr (.inr ⟨w, sym, rest, e, rfl, hd, by simp [step, hq, hd]⟩))
      · exact .inr (.inr (.inl ⟨w, sym, rest, i, rfl, hd, by simp [step, hq, hd]⟩))
    · exact .inr (.inl ⟨rest, rfl, by simp [step, hq]⟩)

end Sys2Proof.Machine
end

