-- ==== Sys2Proof/Laws/PerInstr.lean ====
section
/-! SUPPORT. Statements per command. Family EncodeSelectsRow: the word of a command selects the row of the opcode map that
bears its mnemonic (30_encoding.md R73). -/

namespace Sys2Proof.Laws.EncodeSelectsRow

open Machine

/-- The row of the command's mnemonic is in the opcode map and selects the command's word. -/
def Statement (i : Instr) : Prop :=
  ∃ r ∈ opcodeMap, r.mnemonic = i.mnemonic ∧ r.selects (encode i) = true

/-- A row's mask taken field by field: enough to decide whether the row selects a word put together from fields. -/
theorem selects_of_fields (m : Mnemonic) (op : BitVec 4) (l lm : Bool) (a am : Index) (v k : CmdWord)
    (hk : k = cmdWord 0xF lm am) (hv : v = cmdWord op (l && lm) (a &&& am)) :
    (OpcodeRow.mk m v k).selects (cmdWord op l a) = true := by
  simp only [OpcodeRow.selects, beq_iff_eq, hk, hv, cmdWord_and]

theorem encInit : Statement .encInit := ⟨⟨.encInit, 0x1000, 0xFFFF⟩, by decide, rfl, by decide⟩

theorem encByte (byte : Byte) : Statement (.encByte byte) :=
  ⟨⟨.encByte, 0x2000, 0xFF00⟩, by decide, rfl,
    selects_of_fields _ 2 false true (byteArg byte) 0x700 _ _ (by decide) (by
      have h : byteArg byte &&& 0x700 = 0 := by
        apply BitVec.eq_of_getLsbD_eq
        intro i hi
        by_cases h8 : i < 8
        · have : (0x700 : Index).getLsbD i = false := by
            interval_cases i <;> decide
          rw [BitVec.getLsbD_and, this, Bool.and_false]; exact (BitVec.getLsbD_zero).symm
        · have : byte.getLsbD i = false := BitVec.getLsbD_of_ge byte i (by omega)
          simp [byteArg, this]
      rw [h]; decide)⟩

theorem encFlush : Statement .encFlush := ⟨⟨.encFlush, 0x3000, 0xFFFF⟩, by decide, rfl, by decide⟩

theorem decInit : Statement .decInit := ⟨⟨.decInit, 0x4000, 0xFFFF⟩, by decide, rfl, by decide⟩

theorem decMain (last : Bool) (idx : Index) : Statement (.decMain last idx) :=
  ⟨⟨.decMain, 0x5000, 0xF000⟩, by decide, rfl,
    selects_of_fields _ 5 last false idx 0 _ _ (by decide) (by simp; decide)⟩

theorem decTail (last : Bool) (idx : Index) : Statement (.decTail last idx) :=
  ⟨⟨.decTail, 0x6000, 0xF000⟩, by decide, rfl,
    selects_of_fields _ 6 last false idx 0 _ _ (by decide) (by simp; decide)⟩

theorem decNone (last : Bool) : Statement (.decNone last) := by
  cases last <;> exact ⟨⟨.decNone, 0x7000, 0xF7FF⟩, by decide, rfl, by decide⟩

theorem decEnd : Statement .decEnd := ⟨⟨.decEnd, 0x8000, 0xFFFF⟩, by decide, rfl, by decide⟩

theorem lutMsym (idx : Index) : Statement (.lutMsym idx) :=
  ⟨⟨.lutMsym, 0x9000, 0xF800⟩, by decide, rfl,
    selects_of_fields _ 9 false true idx 0 _ _ (by decide) (by simp; decide)⟩

theorem lutTsym (idx : Index) : Statement (.lutTsym idx) :=
  ⟨⟨.lutTsym, 0xA000, 0xF800⟩, by decide, rfl,
    selects_of_fields _ 10 false true idx 0 _ _ (by decide) (by simp; decide)⟩

theorem lutMidx : Statement .lutMidx := ⟨⟨.lutMidx, 0xB000, 0xFFFF⟩, by decide, rfl, by decide⟩

theorem lutTidx : Statement .lutTidx := ⟨⟨.lutTidx, 0xC000, 0xFFFF⟩, by decide, rfl, by decide⟩

theorem lutClass : Statement .lutClass := ⟨⟨.lutClass, 0xD000, 0xFFFF⟩, by decide, rfl, by decide⟩

theorem decSym (last : Bool) : Statement (.decSym last) := by
  cases last <;> exact ⟨⟨.decSym, 0xE000, 0xF7FF⟩, by decide, rfl, by decide⟩

end Sys2Proof.Laws.EncodeSelectsRow
end

