-- ==== Sys2Proof/Tests/Slice0.lean ====
section
/-! SUPPORT. Tests: words written out from 30_encoding.md R73, the ill-formed terms the checks refuse, one step per command
with results taken from 95_test_vectors.md, and for each statement with hypotheses a witness that meets them. -/

namespace Sys2Proof.Tests

open Sys2Proof Sys2Proof.Machine

/-- A state with the given registers, otherwise as after reset. -/
def st (e : Enc) (d : Dec) : State := { State.reset with enc := e, dec := d }

/-- The decoder registers `(stage, pending, residue)` with `D.fail = 0`. -/
def live (stage : BitVec 7) (pending residue : BitVec 3) : Dec := ⟨stage, pending, residue, false⟩

/-- `s` with one command word presented. -/
def given (w : CmdWord) (s : State) : State := { s with queue := [.command w Config.idleSymbol] }

def encAfter : Host.Outcome State Fault Refusal → Option Enc
  | .next s => some s.enc
  | .fault _ => none
  | .refused _ => none

def decAfter : Host.Outcome State Fault Refusal → Option Dec
  | .next s => some s.dec
  | .fault _ => none
  | .refused _ => none

def codeAfter : Host.Outcome State Fault Refusal → Option Code
  | .next s => s.resp.map Response.code
  | .fault _ => none
  | .refused _ => none

def bytesAfter : Host.Outcome State Fault Refusal → Option (Status × List Byte)
  | .next s => s.resp.map fun r => (r.status, r.bytes)
  | .fault _ => none
  | .refused _ => none

/-! ## Decoding: words written bit by bit from R73 (`op`, `L`, `arg`) -/

theorem test_decode_encInit : decode 0b0001_0_00000000000 = .ok .encInit := by rfl
theorem test_decode_encByte : decode 0b0010_0_000_10100101 = .ok (.encByte 0xA5) := by rfl
theorem test_decode_encFlush : decode 0b0011_0_00000000000 = .ok .encFlush := by rfl
theorem test_decode_decInit : decode 0b0100_0_00000000000 = .ok .decInit := by rfl
theorem test_decode_decMain : decode 0b0101_1_00011111111 = .ok (.decMain true 255) := by rfl
theorem test_decode_decTail : decode 0b0110_0_11111111110 = .ok (.decTail false 2046) := by rfl
theorem test_decode_decNone : decode 0b0111_1_00000000000 = .ok (.decNone true) := by rfl
theorem test_decode_decEnd : decode 0b1000_0_00000000000 = .ok .decEnd := by rfl
theorem test_decode_lutMsym : decode 0b1001_0_00110001001 = .ok (.lutMsym 393) := by rfl
theorem test_decode_lutTsym : decode 0b1010_0_00000000111 = .ok (.lutTsym 7) := by rfl
theorem test_decode_lutMidx : decode 0b1011_0_00000000000 = .ok .lutMidx := by rfl
theorem test_decode_lutTidx : decode 0b1100_0_00000000000 = .ok .lutTidx := by rfl
theorem test_decode_lutClass : decode 0b1101_0_00000000000 = .ok .lutClass := by rfl
theorem test_decode_decSym : decode 0b1110_1_00000000000 = .ok (.decSym true) := by rfl
theorem test_decodeTableWord : decodeTableWord 16 0x50FF = some (.decMain false 255) := by decide

/-! Illegal words (95_test_vectors.md section 3.11). -/

theorem test_illegal_op_0 : decode 0x0FFF = .error .opcodeUnassigned := by rfl
theorem test_illegal_op_F : decode 0xF000 = .error .opcodeUnassigned := by rfl
theorem test_illegal_encByte_guard : decode 0x2100 = .error .argumentNotZero := by rfl
theorem test_illegal_encFlush_last : decode 0x3800 = .error .lastFlagNotZero := by rfl
theorem test_illegal_decNone_arg : decode 0x7001 = .error .argumentNotZero := by rfl
theorem test_illegal_lutMsym_last : decode 0x9800 = .error .lastFlagNotZero := by rfl
theorem test_illegal_decSym_arg : decode 0xE001 = .error .argumentNotZero := by rfl

/-! ## WellFormed: an ill-formed term for each check -/

theorem test_wellFormed_example : (⟨.decMain, true, .number 255⟩ : SourceLine).wellFormed = true := by decide
theorem test_illFormed_flag : (⟨.encFlush, true, .none⟩ : SourceLine).wellFormed = false := by decide
theorem test_illFormed_byte_256 : (⟨.encByte, false, .number 256⟩ : SourceLine).wellFormed = false := by decide
theorem test_illFormed_index_2048 : (⟨.lutTsym, false, .number 2048⟩ : SourceLine).wellFormed = false := by decide
theorem test_illFormed_no_operand : (⟨.decMain, false, .none⟩ : SourceLine).wellFormed = false := by decide
theorem test_illFormed_superfluous : (⟨.decEnd, false, .number 0⟩ : SourceLine).wellFormed = false := by decide
theorem test_illFormed_no_symbol : (⟨.lutClass, false, .number 3⟩ : SourceLine).wellFormed = false := by decide
theorem test_encode_stream : isEncodeStream [.encInit, .encByte 1, .encFlush] = true := by decide
theorem test_not_encode_stream : isEncodeStream [.encInit, .encByte 1] = false := by decide
theorem test_decode_stream :
    isDecodeStream [.decInit, .decMain false 1, .decTail true 2, .decEnd] = true := by decide
theorem test_not_decode_stream_last : isDecodeStream [.decInit, .decMain false 1, .decEnd] = false := by decide
theorem test_assemble_R79 :
    assemble ⟨.decMain, true, .number 255⟩ = .ok (.command 0x58FF Config.idleSymbol) := by rfl

/-! ## One step per command (95_test_vectors.md sections 3.1 to 3.10; the section stands before each) -/

-- 3.1
theorem test_encInit : encAfter (exec .encInit (st ⟨0x12, 5⟩ .initial)) = some ⟨0, 0⟩ := by decide
-- 3.2, fill levels 10 and 2
theorem test_encByte_completes :
    encAfter (exec (.encByte 0xA5) (st ⟨0x2AA, 10⟩ .initial)) = some ⟨0x25, 7⟩ ∧
    codeAfter (exec (.encByte 0xA5) (st ⟨0x2AA, 10⟩ .initial)) = some (.main 1365) := by decide
theorem test_encByte_accumulates :
    encAfter (exec (.encByte 0xA5) (st ⟨0x2, 2⟩ .initial)) = some ⟨0x2A5, 10⟩ ∧
    codeAfter (exec (.encByte 0xA5) (st ⟨0x2, 2⟩ .initial)) = some .none := by decide
-- 3.3, the table is chosen by the count
theorem test_encFlush_tail : codeAfter (exec .encFlush (st ⟨0x7, 3⟩ .initial)) = some (.tail 7) := by decide
theorem test_encFlush_main : codeAfter (exec .encFlush (st ⟨0x1, 4⟩ .initial)) = some (.main 1) := by decide
-- 3.8
theorem test_decInit : decAfter (exec .decInit (st .initial ⟨5, 3, 6, true⟩)) = some .initial := by decide
-- 3.5, the row from (0x7F, 7, 7, 0)
theorem test_decMain_not_last :
    decAfter (exec (.decMain false 0x5A5) (st .initial (live 0x7F 7 7))) = some (live 1 2 2) ∧
    bytesAfter (exec (.decMain false 0x5A5) (st .initial (live 0x7F 7 7))) = some (.ok, [0xFF, 0x69]) := by decide
-- 3.6, the row from (0x3, 2, 2, 0)
theorem test_decMain_last :
    decAfter (exec (.decMain true 37) (st .initial (live 3 2 2))) = some (live 0 0 5) ∧
    bytesAfter (exec (.decMain true 37) (st .initial (live 3 2 2))) = some (.ok, [0xE5]) := by decide
-- 3.7, the boundary pair for need = 3
theorem test_decTail_accepted :
    bytesAfter (exec (.decTail true 7) (st .initial (live 0x15 5 5))) = some (.ok, [0xAF]) := by decide
theorem test_decTail_rejected :
    decAfter (exec (.decTail true 8) (st .initial (live 0x15 5 5))) = some ⟨0x15, 5, 0, true⟩ ∧
    bytesAfter (exec (.decTail true 8) (st .initial (live 0x15 5 5))) = some (.invalidSymbol, []) := by decide
-- 3.8
theorem test_decNone :
    decAfter (exec (.decNone false) (st .initial (live 0x15 5 5))) = some ⟨0x15, 5, 0, true⟩ ∧
    bytesAfter (exec (.decNone false) (st .initial (live 0x15 5 5))) = some (.invalidSymbol, []) := by decide
theorem test_decEnd :
    decAfter (exec .decEnd (st .initial (live 0x16 5 6))) = some .initial ∧
    bytesAfter (exec .decEnd (st .initial (live 0x16 5 6))) = some (.ok, [0x16]) := by decide
theorem test_decEnd_failed :
    decAfter (exec .decEnd (st .initial ⟨0xC, 6, 1, true⟩)) = some ⟨0xC, 6, 1, true⟩ := by decide
-- 3.10
theorem test_lutMsym : codeAfter (exec (.lutMsym 393) State.reset) = some (.main 393) := by decide
theorem test_lutTsym : codeAfter (exec (.lutTsym 7) State.reset) = some (.tail 7) := by
  have h := Config.tables.tailN_ge
  have : ¬ Config.tables.tailN ≤ (7 : Index).toNat := by rw [show (7 : Index).toNat = 7 from rfl]; omega
  simp only [exec, execLutTsym, if_neg this]; rfl
theorem test_lutMidx :
    codeAfter (exec .lutMidx { State.reset with symIn := Config.tables.mainSym 1164 }) = some (.main 1164) := by
  simp [exec, execLutMidx, symOperand, mainSearch, Config.tables.mainIdx_mainSym, codeAfter, State.respond,
    Response.answer, Response.code, Code.kind, Code.idx]
theorem test_lutTidx_main :
    codeAfter (exec .lutTidx { State.reset with symIn := Config.tables.mainSym 3 }) = some .none := by
  simp [exec, execLutTidx, symOperand, tailSearch, tailIdx_mainSym, codeAfter, State.respond,
    Response.answer, Response.code, Code.kind, Code.idx]
theorem test_lutClass :
    codeAfter (exec .lutClass { State.reset with symIn := Config.tables.mainSym 2047 }) = some (.main 2047) := by
  simp [exec, execLutClass, symOperand, codeAfter, State.respond,
    Response.answer, Response.code, Code.kind, Code.idx]
theorem test_decSym :
    exec (.decSym true) { State.reset with symIn := Config.tables.mainSym 255 } =
      .next { State.reset with
        symIn := Config.tables.mainSym 255, dec := live 0 0 3, resp := some (okBytes [0xFF]) } := by
  simp only [exec, execDecSym, symOperand, classify_mainSym, State.whileLive, State.failed, State.takeCode]
  rfl

/-! The step: an illegal word (P8), a word put where the next command is read, and the strict reading of U2. -/

theorem test_step_illegal :
    bytesAfter (step (given 0x2132 State.reset)) = some (.illegalCommand, []) := by decide
theorem test_withFetchWord :
    encAfter (step (State.reset.withFetchWord 16 0x2031)) = some ⟨0x31, 8⟩ := by decide
theorem test_strict_tail :
    (State.takeTail true State.reset false 5).dec.fail = true ∧
    (State.takeTail true State.reset true 5).dec.fail = false := by decide

/-! ## Witnesses: for each statement with hypotheses, states and operands that meet them together, at the ends of the ranges -/

theorem witness_ResetInputActsAsBothInits :
    ({ st ⟨5, 3⟩ (live 5 3 2) with queue := [.reset] } : State).queue = .reset :: [] := rfl
theorem witness_EveryStepKeepsLegalStates :
    (given 0x2031 State.reset).Legal ∧
    step (given 0x2031 State.reset) = .next
      { State.reset with enc := ⟨0x31, 8⟩, resp := some (okBytes []) } := ⟨by decide, rfl⟩
theorem witness_LegalStatesNeverStop : (st ⟨0x3FF, 10⟩ (live 0x7F 7 7)).Legal := by decide
theorem witness_StepPerformsTheDecodedCommand :
    (given 0x2031 State.reset).queue = .command 0x2031 Config.idleSymbol :: [] ∧ decode 0x2031 = .ok (.encByte 0x31) :=
  ⟨rfl, rfl⟩
theorem witness_IllegalWordChangesNoRegister :
    (given 0xF123 State.reset).queue = .command 0xF123 Config.idleSymbol :: [] ∧ decode 0xF123 = .error .opcodeUnassigned :=
  ⟨rfl, rfl⟩
theorem witness_IdleBlockHoldsItsState : State.reset.queue = [] := rfl
theorem witness_SequencesArePerformedInOrder :
    performAll [.reset, .command 0x2031 Config.idleSymbol] State.reset =
      .next ({ State.reset with enc := ⟨0x31, 8⟩, resp := some (okBytes []) }, [okBytes []]) := rfl
theorem witness_EncodeOfDecodeIsTheWord : decode 0x57FF = .ok (.decMain false 2047) := rfl
theorem witness_LegalWordsSelectOneRow :
    (⟨.encByte, 0x2000, 0xFF00⟩ : OpcodeRow) ∈ opcodeMap ∧
    (⟨.encByte, 0x2000, 0xFF00⟩ : OpcodeRow).selects 0x20FF = true ∧
    decode 0x20FF = .ok (.encByte 0xFF) := ⟨by decide, by decide, rfl⟩
theorem witness_IllegalWordsAreTheseAndDoNothing :
    (given 0x3800 State.reset).queue = .command 0x3800 Config.idleSymbol :: [] ∧ decode 0x3800 = .error .lastFlagNotZero :=
  ⟨rfl, rfl⟩
theorem witness_WellFormedLinesAssemble :
    (⟨.decSym, true, .symbol (Config.tables.mainSym 1)⟩ : SourceLine).wellFormed = true ∧
    (⟨.encByte, false, .number 255⟩ : SourceLine).wellFormed = true ∧
    (⟨.decTail, false, .number 2047⟩ : SourceLine).wellFormed = true ∧
    (⟨.word, false, .number 65535⟩ : SourceLine).wellFormed = true ∧
    (⟨.word, false, .number 65536⟩ : SourceLine).wellFormed = false := by decide
theorem witness_EncByteTakesOneByte :
    (st ⟨0x7, 3⟩ .initial).enc.Legal ∧ (st ⟨0x3FF, 10⟩ .initial).enc.Legal ∧
    (st ⟨0, 0⟩ .initial).enc.Legal ∧ (st ⟨0x3, 2⟩ .initial).enc.Legal := by decide
theorem witness_EncByteAddsEightModEleven : (st ⟨0, 10⟩ .initial).enc.pending.toNat ≤ 10 := by decide
theorem witness_AccumulatingBranchIsNeverTakenTwice :
    (st ⟨3, 2⟩ .initial).enc.Legal ∧ (st ⟨3, 2⟩ .initial).enc.pending.toNat ≤ 2 := by decide
theorem witness_EncFlushEmitsTheRemainder :
    (st ⟨0, 0⟩ .initial).enc.Legal ∧ (st ⟨1, 1⟩ .initial).enc.Legal ∧ (st ⟨7, 3⟩ .initial).enc.Legal ∧
    (st ⟨15, 4⟩ .initial).enc.Legal ∧ (st ⟨0x3FF, 10⟩ .initial).enc.Legal := by decide
theorem witness_OnlyUnreachedPendingCountsAreRefused :
    exec .encFlush (st ⟨0, 11⟩ .initial) = .refused .encoderPendingOutOfRange ∧
    exec (.encByte 0) (st ⟨0, 15⟩ .initial) = .refused .encoderPendingOutOfRange := ⟨rfl, rfl⟩
theorem witness_EncoderCommandsEndWithOk :
    (st ⟨0x3FF, 10⟩ .initial).enc.Legal ∧ Instr.commandUnit .encFlush = .enc := by decide
theorem witness_EncoderEmitsTheseIndices_byte :
    (st ⟨7, 3⟩ .initial).enc.Legal ∧ codeAfter (exec (.encByte 0xFF) (st ⟨7, 3⟩ .initial)) = some (.main 2047) := by
  decide
theorem witness_EncoderEmitsTheseIndices_flush :
    (st ⟨7, 3⟩ .initial).enc.Legal ∧ codeAfter (exec .encFlush (st ⟨7, 3⟩ .initial)) = some (.tail 7) ∧
    (st ⟨0x3FF, 10⟩ .initial).enc.Legal ∧
    codeAfter (exec .encFlush (st ⟨0x3FF, 10⟩ .initial)) = some (.main 1023) := by decide
theorem witness_DecMainNotLastDeliversWholeBytes :
    (live 0 0 0).Legal ∧ (live 0xF 4 4).Legal ∧ (live 0x1F 5 5).Legal ∧ (live 0x7F 7 7).Legal ∧
    (live 0x7F 7 7).fail = false := by decide
theorem witness_DecMainLastDeliversItsMeaningfulBits :
    (st .initial (live 0 0 0)).dec.fail = false ∧ (live 0 0 0).Legal ∧
    (255 : Index).toNat < 2 ^ (11 - ((live 0 0 0).residue.toNat + 11) % 8) ∧
    (live 0x1F 5 5).Legal ∧ (2047 : Index).toNat < 2 ^ (11 - ((live 0x1F 5 5).residue.toNat + 11) % 8) := by decide
theorem witness_DecMainNeverFaults : (st .initial (live 7 3 3)).dec.fail = false := rfl
theorem witness_LastMainSymbolEndsOnAByte :
    (st .initial (live 0xF 4 4)).dec.fail = false ∧ (live 0xF 4 4).residue = (live 0xF 4 4).pending := ⟨rfl, rfl⟩
theorem witness_DecTailCompletesTheByte :
    (st .initial (live 0x55 7 7)).dec.fail = false ∧ (live 0x55 7 7).Legal ∧
    (1 : Index).toNat < 2 ^ (8 - (live 0x55 7 7).pending.toNat) ∧
    (live 0 0 0).Legal ∧ (255 : Index).toNat < 2 ^ (8 - (live 0 0 0).pending.toNat) := by decide
theorem witness_DecTailTooLargeFaults :
    (st .initial (live 0x55 7 7)).dec.fail = false ∧ 2 ^ (8 - (live 0x55 7 7).pending.toNat) ≤ (2 : Index).toNat ∧
    2 ^ (8 - (live 0 0 0).pending.toNat) ≤ (256 : Index).toNat := by decide
theorem witness_DecEndClearsTheDecoder : (st .initial (live 0x7F 7 2)).dec.fail = false := rfl
theorem witness_FailedDecoderIsInert :
    (st .initial ⟨0xC, 6, 1, true⟩).dec.fail = true ∧ Instr.commandUnit (.decSym true) = .dec ∧
    Instr.decSym true ≠ .decInit ∧ Instr.commandUnit .encInit ≠ .dec ∧
    encAfter (exec .encInit (st .initial ⟨0xC, 6, 1, true⟩)) = some .initial := by decide
theorem witness_OnlyDecInitAndResetClearFail :
    (given 0x4000 (st .initial ⟨0xC, 6, 1, true⟩)).dec.fail = true ∧
    decAfter (step (given 0x4000 (st .initial ⟨0xC, 6, 1, true⟩))) = some .initial ∧
    decAfter (step { st .initial ⟨0xC, 6, 1, true⟩ with queue := [.reset] }) = some .initial := by decide
theorem witness_InvalidSymbolSetsFail :
    (given 0x7000 State.reset).queue = .command 0x7000 Config.idleSymbol :: [] ∧ State.reset.dec.fail = false ∧
    decAfter (step (given 0x7000 State.reset)) = some ⟨0, 0, 3, true⟩ ∧
    bytesAfter (step (given 0x7000 State.reset)) = some (.invalidSymbol, []) := ⟨rfl, rfl, by decide, by decide⟩
theorem witness_CommandsEndWithTheseStatuses :
    (st ⟨0x3FF, 10⟩ (live 0 0 0)).enc.pending.toNat ≤ 10 ∧ decode 0x7001 = .error .argumentNotZero :=
  ⟨by decide, rfl⟩
theorem witness_table_ranges :
    (3 : Index).toNat < Config.tables.tailN ∧ (7 : Index).toNat < Config.tables.tailN := by
  have h := Config.tables.tailN_ge
  exact ⟨lt_of_lt_of_le (by decide) h, lt_of_lt_of_le (by decide) h⟩
theorem witness_LutMidxSearchesTheMainTable :
    (7 : Index).toNat < Config.tables.tailN ∧
    ({ State.reset with symIn := Config.tables.tailSym 7 } : State).symIn = Config.tables.tailSym 7 :=
  ⟨witness_table_ranges.2, rfl⟩
theorem witness_LutTidxSearchesTheTailTable :
    ({ State.reset with symIn := Config.tables.mainSym 2047 } : State).symIn = Config.tables.mainSym 2047 := rfl
theorem witness_LutClassUndoesTheSymbolOutput :
    ({ State.reset with symIn := Config.tables.mainSym 0 } : State).symIn = Config.tables.mainSym 0 ∧
    (7 : Index).toNat < Config.tables.tailN ∧
    ({ State.reset with symIn := Config.tables.tailSym 7 } : State).symIn = Config.tables.tailSym 7 :=
  ⟨rfl, witness_table_ranges.2, rfl⟩
theorem witness_LutCommandsDependOnTheirOperandAlone :
    Instr.commandUnit .lutClass = .lut ∧ State.reset.symIn = (st ⟨5, 3⟩ (live 5 3 2)).symIn := ⟨rfl, rfl⟩
theorem witness_DecSymDecodesTheTablesSymbols_main :
    let s : State := { st .initial (live 0x7F 7 7) with symIn := Config.tables.mainSym 2047 }
    s.dec.fail = false ∧ s.dec.Legal ∧ s.symIn = Config.tables.mainSym 2047 ∧ (2047 : Index).toNat < 2 ^ 11 :=
  ⟨rfl, by decide, rfl, by decide⟩
theorem witness_DecSymDecodesTheTablesSymbols_main_last :
    let s : State := { st .initial (live 0x1F 5 5) with symIn := Config.tables.mainSym 2047 }
    let u : State := { st .initial (live 3 2 2) with symIn := Config.tables.mainSym 63 }
    s.dec.fail = false ∧ s.dec.Legal ∧ s.symIn = Config.tables.mainSym 2047 ∧
    (2047 : Index).toNat < 2 ^ (11 - (s.dec.residue.toNat + 11) % 8) ∧
    u.dec.fail = false ∧ u.dec.Legal ∧ u.symIn = Config.tables.mainSym 63 ∧
    (63 : Index).toNat < 2 ^ (11 - (u.dec.residue.toNat + 11) % 8) :=
  ⟨rfl, by decide, rfl, by decide, rfl, by decide, rfl, by decide⟩
theorem witness_DecSymDecodesTheTablesSymbols_tail :
    let s : State := { st .initial (live 0xC 6 6) with symIn := Config.tables.tailSym 3 }
    s.dec.fail = false ∧ s.dec.Legal ∧ (3 : Index).toNat < Config.tables.tailN ∧
    s.symIn = Config.tables.tailSym 3 ∧ (3 : Index).toNat < 2 ^ (8 - s.dec.pending.toNat) :=
  ⟨rfl, by decide, witness_table_ranges.1, rfl, by decide⟩
theorem witness_CommandsOfOneUnitIgnoreTheOther :
    Instr.commandUnit (.encByte 0) = .enc ∧ encAfter (exec (.encByte 0) State.reset) = some ⟨0, 8⟩ ∧
    Instr.commandUnit (.decMain true 255) = .dec ∧
    decAfter (exec (.decMain true 255) State.reset) = some (live 0 0 3) := by decide
theorem witness_InterleavedStreamsAreIndependent :
    State.reset.Legal ∧ Input.isOf .enc (.command 0x20DE Config.idleSymbol) = true ∧
    Input.isOf .dec (.command 0x56F5 Config.idleSymbol) = true := by decide
theorem witness_InitialStateIsTheSameAtFourPoints :
    (st ⟨0x3FF, 10⟩ (live 1 1 4)).enc.pending.toNat ≤ 10 ∧ (st ⟨0x3FF, 10⟩ (live 1 1 4)).dec.fail = false := by
  decide
theorem witness_OnlyFourStatusCodesAreDriven :
    (given 0x0000 State.reset).queue = .command 0x0000 Config.idleSymbol :: [] ∧
    bytesAfter (step (given 0x0000 State.reset)) = some (.illegalCommand, []) := ⟨rfl, by decide⟩
theorem witness_PendingAfterKBytes : State.reset.enc = { stage := 0, pending := 0 } := rfl
theorem witness_PendingEqualsResidueOnMainStreams :
    State.reset.dec = { stage := 0, pending := 0, residue := 0, fail := false } := rfl
theorem witness_PseudoInstructionsAreWellShaped :
    (st ⟨0, 0⟩ (live 5 3 2)).enc = { stage := 0, pending := 0 } ∧
    (st ⟨5, 3⟩ .initial).dec = { stage := 0, pending := 0, residue := 0, fail := false } := ⟨rfl, rfl⟩

end Sys2Proof.Tests
end

section
/-! PROOFS. Laws every family of statements uses: the decoder of command words is the inverse of the encoder
(30_encoding.md R71 to R73), and a sequence of inputs is performed one command at a time (20_memory.md R62). -/

namespace Sys2Proof.Machine

/-! ## Command words -/

/-- A word is put together from its own fields (R71). -/
theorem cmdWord_fields (w : CmdWord) : cmdWord (opField w) (lastField w) (argField w) = w := by
  apply BitVec.eq_of_getLsbD_eq
  intro i hi
  simp only [cmdWord, opField, lastField, argField, BitVec.getLsbD_append, BitVec.getLsbD_ofBool,
    BitVec.getLsbD_extractLsb']
  by_cases harg : i < 11
  · simp [harg]
  · by_cases hlast : i = 11
    · subst hlast; simp
    · have hop : 12 + (i - 11 - 1) = i := by omega
      have hlast' : ¬ i - 11 < 1 := by omega
      simp [harg, hlast', hop]
      omega

/-- A byte operand leaves `arg[10:8]` zero (R72). -/
theorem byteArg_guard (b : Byte) : (byteArg b).extractLsb' 8 3 = 0 := by
  apply BitVec.eq_of_getLsbD_eq
  intro i hi
  simp [byteArg]

/-- Where `arg[10:8]` is zero, the argument is its low byte (R72). -/
theorem byteArg_byteField {w : CmdWord} (h : byteGuardField w = 0) : byteArg (byteField w) = argField w := by
  apply BitVec.eq_of_getLsbD_eq
  intro i hi
  by_cases hlow : i < 8
  · simp [byteArg, byteField, argField, hi, hlow]
  · have hbit : (byteGuardField w).getLsbD (i - 8) = false := by rw [h]; exact BitVec.getLsbD_zero
    have hi' : i - 8 < 3 := by omega
    have hpos : 8 + (i - 8) = i := by omega
    simp only [byteGuardField, BitVec.getLsbD_extractLsb', hi', hpos, decide_true, Bool.true_and] at hbit
    simp [byteArg, byteField, argField, hi, hlow, hbit]

theorem plainCommand_eq_ok {w : CmdWord} {i j : Instr} :
    plainCommand w i = .ok j ↔ lastField w = false ∧ argField w = 0 ∧ i = j := by
  unfold plainCommand
  split <;> [skip; split] <;> simp_all

theorem flaggedCommand_eq_ok {w : CmdWord} {i : Bool → Instr} {j : Instr} :
    flaggedCommand w i = .ok j ↔ argField w = 0 ∧ i (lastField w) = j := by
  unfold flaggedCommand
  split <;> simp_all

theorem indexedCommand_eq_ok {w : CmdWord} {i : Index → Instr} {j : Instr} :
    indexedCommand w i = .ok j ↔ lastField w = false ∧ i (argField w) = j := by
  unfold indexedCommand
  split <;> simp_all

theorem byteCommand_eq_ok {w : CmdWord} {j : Instr} :
    byteCommand w = .ok j ↔ lastField w = false ∧ byteGuardField w = 0 ∧ .encByte (byteField w) = j := by
  unfold byteCommand
  split <;> [skip; split] <;> simp_all

/-- Every command's word decodes to the command. -/
theorem decode_encode (i : Instr) : decode (encode i) = .ok i := by
  cases i with
  | encByte b =>
    have hbyte : (byteArg b).setWidth 8 = b := by simp [byteArg]
    simp [decode, encode, byteCommand, byteArg_guard, hbyte]
  | _ => simp [decode, encode, plainCommand, flaggedCommand, indexedCommand]

/-- A word that decodes is the word of its command. -/
theorem encode_of_decode {w : CmdWord} {i : Instr} (h : decode w = .ok i) : encode i = w := by
  have hop {n : Nat} (hn : (opField w).toNat = n) : opField w = BitVec.ofNat 4 n := by
    rw [← hn, BitVec.ofNat_toNat, BitVec.setWidth_eq]
  rw [← cmdWord_fields w]
  unfold decode at h
  split at h
  case h_2 hn =>
    obtain ⟨hlast, hguard, rfl⟩ := byteCommand_eq_ok.mp h
    rw [hop hn, hlast, ← byteArg_byteField hguard]
    rfl
  case h_5 hn | h_6 hn =>
    cases h
    rw [hop hn]; rfl
  case h_7 hn | h_14 hn =>
    obtain ⟨harg, rfl⟩ := flaggedCommand_eq_ok.mp h
    rw [hop hn, harg]; rfl
  case h_9 hn | h_10 hn =>
    obtain ⟨hlast, rfl⟩ := indexedCommand_eq_ok.mp h
    rw [hop hn, hlast]; rfl
  case h_15 => cases h
  all_goals
    obtain ⟨hlast, harg, rfl⟩ := plainCommand_eq_ok.mp h
    rw [hop ‹_›, hlast, harg]; rfl

/-! ## Sequences of inputs -/

/-- The first command of a sequence is performed, and the rest from the state it leaves (R62). -/
theorem performAll_command {w : CmdWord} {y : Symbol} {rest : List Input} {i : Instr} {s t u : State}
    {out : List Response} (hw : decode w = .ok i) (ht : exec i (s.present y []) = .next t)
    (hrest : performAll rest t = .next (u, out)) :
    performAll (.command w y :: rest) s = .next (u, t.resp.toList ++ out) := by
  have hstep : step { s with queue := [.command w y] } = .next t := by
    simp only [step, hw]; exact ht
  simp [performAll, hstep, hrest]

/-- `performAll_command` for a command presented by its own word. -/
theorem performAll_ofInstr {rest : List Input} {i : Instr} {s t u : State} {out : List Response}
    (ht : exec i (s.present Config.idleSymbol []) = .next t) (hrest : performAll rest t = .next (u, out)) :
    performAll (.ofInstr i :: rest) s = .next (u, t.resp.toList ++ out) :=
  performAll_command (decode_encode i) ht hrest

/-- An input of a unit is a word that decodes to a command of the unit. -/
theorem Input.isOf_eq_true {u : CommandUnit} {x : Input} :
    x.isOf u = true ↔ ∃ w y i, x = .command w y ∧ decode w = .ok i ∧ i.commandUnit = u := by
  rcases x with ⟨w, y⟩ | _
  · rcases hd : decode w with e | i <;> simp [Input.isOf, hd]
  · simp [Input.isOf]

theorem emittedCodes_cons (r : Response) (out : List Response) :
    emittedCodes (r :: out) = emittedCodes [r] ++ emittedCodes out := by
  simp only [emittedCodes, List.map_cons, List.map_nil, List.filter_cons, List.filter_nil]
  split <;> rfl

theorem emittedSymbols_cons (r : Response) (out : List Response) :
    emittedSymbols (r :: out) = r.symOut.toList ++ emittedSymbols out := by
  cases h : r.symOut <;> simp [emittedSymbols, h]

theorem emittedBytes_cons (r : Response) (out : List Response) :
    emittedBytes (r :: out) = r.bytes ++ emittedBytes out := rfl

end Sys2Proof.Machine
end

section
/-! PROOFS. What one command can do to the registers of its unit and to the ports (10_state.md R23, R28, R38): one lemma per
unit gives the effect and says that it depends on that unit alone. -/

namespace Sys2Proof.Machine

/-! ## Responses -/

theorem Response.quiet_legal : Response.quiet.Legal := by decide

theorem Response.answer_legal (c : Code) : (Response.answer c).Legal := by
  cases c <;> simp [Response.answer, Response.Legal, Code.kind, Code.idx]

theorem Response.emission_legal (c : Code) : (Response.emission c).Legal := by
  cases c <;> simp [Response.emission, Response.Legal, Code.kind, Code.idx, Code.symbol]

theorem Response.ofBytes_legal {bs : List Byte} (h : bs.length ≤ 2) : (Response.ofBytes bs).Legal := by
  simp [Response.ofBytes, Response.Legal, h]

theorem Response.fault_legal {st : Status} (hdata : st ≠ .invalidData) (hio : st ≠ .ioError) :
    (Response.fault st).Legal := by
  simp [Response.fault, Response.Legal, hdata, hio]

/-! ## The encoder -/

/-- What an ENC command can do to the encoder's registers `e`: the new registers and the response (R100, R101, R104). -/
inductive EncEffect (e : Enc) : Enc → Response → Prop where
  | init : EncEffect e .initial .quiet
  | byte (b : Byte) (h : e.pending.toNat ≤ 10) : EncEffect e (e.takeByte b).1 (.emission (e.takeByte b).2)
  | flush (h : e.pending.toNat ≤ 10) : EncEffect e .initial (.emission e.remainder)

theorem exec_encByte {s : State} (b : Byte) (h : s.enc.pending.toNat ≤ 10) :
    exec (.encByte b) s =
      .next ((s.withEnc (s.enc.takeByte b).1).respond (.emission (s.enc.takeByte b).2)) :=
  if_neg (by simpa using h)

theorem exec_encFlush {s : State} (h : s.enc.pending.toNat ≤ 10) :
    exec .encFlush s = .next ((s.withEnc .initial).respond (.emission s.enc.remainder)) :=
  if_neg (by simpa using h)

theorem exec_encByte_refused {s : State} (b : Byte) (h : 10 < s.enc.pending.toNat) :
    exec (.encByte b) s = .refused .encoderPendingOutOfRange :=
  if_pos (by simpa using h)

theorem exec_encFlush_refused {s : State} (h : 10 < s.enc.pending.toNat) :
    exec .encFlush s = .refused .encoderPendingOutOfRange :=
  if_pos (by simpa using h)

/-- Everything an ENC command can do, and that it depends on the encoder's registers alone (R38): it is refused (U7), or it
has one effect in every state with these registers. -/
theorem exec_enc_cases {i : Instr} (hi : i.commandUnit = .enc) (e : Enc) :
    (10 < e.pending.toNat ∧ (i = .encFlush ∨ ∃ b, i = .encByte b) ∧
      ∀ s : State, s.enc = e → exec i s = .refused .encoderPendingOutOfRange) ∨
    ((e.pending.toNat ≤ 10 ∨ i = .encInit) ∧
      ∃ e' r, EncEffect e e' r ∧ ∀ s : State, s.enc = e → exec i s = .next ((s.withEnc e').respond r)) := by
  cases i with
  | encInit => exact .inr ⟨.inr rfl, _, _, .init, fun s _ => rfl⟩
  | encByte b =>
    rcases Nat.lt_or_ge 10 e.pending.toNat with h | h
    · exact .inl ⟨h, .inr ⟨b, rfl⟩, fun s hs => exec_encByte_refused b (hs ▸ h)⟩
    · exact .inr ⟨.inl h, _, _, .byte b h, by rintro s rfl; exact exec_encByte b h⟩
  | encFlush =>
    rcases Nat.lt_or_ge 10 e.pending.toNat with h | h
    · exact .inl ⟨h, .inl rfl, fun s hs => exec_encFlush_refused (hs ▸ h)⟩
    · exact .inr ⟨.inl h, _, _, .flush h, by rintro s rfl; exact exec_encFlush h⟩
  | _ => cases hi

/-- Registers that hold `p ≤ 10` bits of a value below `2^p` meet the encoder invariant (R23). -/
theorem Enc.legal_ofNat {p n : Nat} (hp : p ≤ 10) (hn : n < 2 ^ p) :
    Enc.Legal ⟨BitVec.ofNat 10 n, BitVec.ofNat 4 p⟩ := by
  have hpend : (BitVec.ofNat 4 p).toNat = p := by rw [BitVec.toNat_ofNat]; omega
  simp only [Enc.Legal, hpend, BitVec.toNat_ofNat]
  exact ⟨hp, (Nat.mod_le _ _).trans_lt hn⟩

/-- R102, R103: ENC.BYTE keeps the encoder invariant. -/
theorem Enc.takeByte_legal {e : Enc} (h : e.Legal) (b : Byte) : (e.takeByte b).1.Legal := by
  obtain ⟨hp, hstage⟩ := h
  rcases Enc.takeByte_cases e b with ⟨hfull, heq⟩ | ⟨hshort, heq⟩
  · rw [heq, Nat.and_two_pow_sub_one_eq_mod]
    exact Enc.legal_ofNat (by omega) (Nat.mod_lt _ (Nat.two_pow_pos _))
  · have hjoin : e.stage.toNat <<< 8 ||| b.toNat < 2 ^ (e.pending.toNat + 8) := by
      refine Nat.or_lt_two_pow ?_ (b.isLt.trans_le (Nat.pow_le_pow_right (by omega) (by omega)))
      rw [Nat.shiftLeft_eq, Nat.pow_add]
      exact Nat.mul_lt_mul_of_pos_right hstage (by omega)
    rw [heq]
    exact Enc.legal_ofNat (by omega) hjoin

/-- R105: in both branches ENC.BYTE adds 8 to `E.pending` modulo 11. -/
theorem Enc.takeByte_pending {e : Enc} (h : e.pending.toNat ≤ 10) (b : Byte) :
    (e.takeByte b).1.pending.toNat = (e.pending.toNat + 8) % 11 := by
  rcases Enc.takeByte_cases e b with ⟨hfull, heq⟩ | ⟨hshort, heq⟩ <;>
  · simp only [heq, BitVec.toNat_ofNat]
    omega

theorem EncEffect.legal {e e' : Enc} {r : Response} (h : EncEffect e e' r) (he : e.Legal) : e'.Legal := by
  cases h with
  | init | flush => decide
  | byte b => exact Enc.takeByte_legal he b

theorem EncEffect.response_legal {e e' : Enc} {r : Response} (h : EncEffect e e' r) : r.Legal := by
  cases h with
  | init => exact Response.quiet_legal
  | byte | flush => exact Response.emission_legal _

/-- An ENC command emits no byte. -/
theorem EncEffect.no_bytes {e e' : Enc} {r : Response} (h : EncEffect e e' r) : r.bytes = [] := by
  cases h <;> rfl

/-! ## The decoder -/

/-- What the DEC command `i` can do to the decoder's registers `d`: the new registers and the response (R120 to R131). -/
inductive DecEffect (i : Instr) (d : Dec) : Dec → Response → Prop where
  | init (hi : i = .decInit) : DecEffect i d .initial .quiet
  | dead (hf : d.fail = true) : DecEffect i d d (.fault .invalidSymbol)
  | take (hf : d.fail = false) (n value : Nat) (hn : n ≤ 11) :
      DecEffect i d (d.advanceResidue.append n value).1 (.ofBytes (d.advanceResidue.append n value).2)
  | reject (hf : d.fail = false) : DecEffect i d { d.advanceResidue with fail := true } (.fault .invalidSymbol)
  | finish (hf : d.fail = false) : DecEffect i d .initial (.ofBytes d.leftover)

/-- A symbol of a known kind, `D.fail = 0`: its effect depends on the decoder's registers alone. -/
theorem takeCode_effect (i : Instr) {d : Dec} (hf : d.fail = false) (last : Bool) (c : Code) :
    ∃ d' r, DecEffect i d d' r ∧ ∀ s : State, s.dec = d → s.takeCode last c = (s.withDec d').respond r := by
  cases c with
  | main idx =>
    exact ⟨_, _, .take hf (d.advanceResidue.mainWidth last) idx.toNat (Dec.mainWidth_le _ _), by rintro s rfl; rfl⟩
  | tail idx =>
    by_cases hidx : idx.toNat < 2 ^ d.need
    · refine ⟨_, _, .take hf d.need idx.toNat ((Dec.need_le d).trans (by omega)), ?_⟩
      rintro s rfl
      rcases State.takeTail_cases s last idx with ⟨-, heq⟩ | ⟨hlarge, -⟩
      · exact heq
      · omega
    · refine ⟨_, _, .reject hf, ?_⟩
      rintro s rfl
      rcases State.takeTail_cases s last idx with ⟨hsmall, -⟩ | ⟨-, heq⟩
      · omega
      · exact heq
  | none => exact ⟨_, _, .reject hf, by rintro s rfl; rfl⟩

/-- What a DEC command other than DEC.INIT does while `D.fail = 0`: a symbol command takes one code, DEC.END ends the
stream (R121 to R130, R157). -/
theorem exec_dec_live {i : Instr} (hi : i.commandUnit = .dec) (hinit : i ≠ .decInit) (y : Symbol) :
    (∃ last c, ∀ s : State, s.symIn = y → exec i s = .next (s.whileLive fun s => s.takeCode last c)) ∨
    (∀ s : State, exec i s = .next (s.whileLive fun s => (s.withDec .initial).respond (.ofBytes s.dec.leftover))) := by
  cases i with
  | decMain last idx => exact .inl ⟨last, .main idx, fun _ _ => rfl⟩
  | decTail last idx => exact .inl ⟨last, .tail idx, fun _ _ => rfl⟩
  | decNone last => exact .inl ⟨last, .none, fun _ _ => rfl⟩
  | decSym last => exact .inl ⟨last, classify y, by rintro s rfl; rfl⟩
  | decEnd => exact .inr fun _ => rfl
  | decInit => exact absurd rfl hinit
  | _ => cases hi

/-- Everything a DEC command can do, and that it depends on the decoder's registers and on `sym_in` alone (R38). -/
theorem exec_dec_cases {i : Instr} (hi : i.commandUnit = .dec) (d : Dec) (y : Symbol) :
    ∃ d' r, DecEffect i d d' r ∧
      ∀ s : State, s.dec = d → s.symIn = y → exec i s = .next ((s.withDec d').respond r) := by
  by_cases hinit : i = .decInit
  · subst hinit
    exact ⟨_, _, .init rfl, fun _ _ _ => rfl⟩
  cases hf : d.fail with
  | true =>
    refine ⟨_, _, .dead hf, ?_⟩
    rintro s rfl rfl
    rcases exec_dec_live hi hinit s.symIn with ⟨last, c, hexec⟩ | hexec
    · rw [hexec s rfl, State.whileLive_failed _ _ hf]; rfl
    · rw [hexec s, State.whileLive_failed _ _ hf]; rfl
  | false =>
    rcases exec_dec_live hi hinit y with ⟨last, c, hexec⟩ | hexec
    · obtain ⟨d', r, heff, htake⟩ := takeCode_effect i hf last c
      refine ⟨d', r, heff, ?_⟩
      rintro s rfl hy
      rw [hexec s hy, State.whileLive_live _ _ hf, htake s rfl]
    · refine ⟨_, _, .finish hf, ?_⟩
      rintro s rfl -
      rw [hexec s, State.whileLive_live _ _ hf]

theorem DecEffect.legal {i : Instr} {d d' : Dec} {r : Response} (h : DecEffect i d d' r) (hd : d.Legal) :
    d'.Legal := by
  cases h with
  | init | finish => decide
  | dead | reject => exact hd
  | take _ n value hn => exact Dec.append_stage_lt _ n value hn

theorem DecEffect.response_legal {i : Instr} {d d' : Dec} {r : Response} (h : DecEffect i d d' r) : r.Legal := by
  cases h with
  | init => exact Response.quiet_legal
  | dead | reject => exact Response.fault_legal (by decide) (by decide)
  | take _ n value hn =>
    apply Response.ofBytes_legal
    have hp := d.pending.isLt
    rw [(Dec.append_counts _ n value hn).1, Dec.advanceResidue_pending]
    omega
  | finish =>
    apply Response.ofBytes_legal
    unfold Dec.leftover
    split <;> simp

/-- A DEC command emits no symbol. -/
theorem DecEffect.no_symbol {i : Instr} {d d' : Dec} {r : Response} (h : DecEffect i d d' r) :
    r.kind = .none ∧ r.symOut = none := by
  cases h <;> exact ⟨rfl, rfl⟩

/-- Only DEC.INIT clears `D.fail` (R27, R131, R182). -/
theorem DecEffect.fail {i : Instr} {d d' : Dec} {r : Response} (h : DecEffect i d d' r) (hd : d.fail = true)
    (hd' : d'.fail = false) : i = .decInit := by
  cases h with
  | init hi => exact hi
  | dead => simp [hd] at hd'
  | take hf | reject hf | finish hf => simp [hd] at hf

/-! ## The table commands -/

/-- Everything a LUT command can do (R150): it writes no register and drives legal ports. -/
theorem exec_lut_cases {i : Instr} (hi : i.commandUnit = .lut) (s : State) :
    ∃ r : Response, r.Legal ∧ exec i s = .next (s.respond r) := by
  cases i with
  | lutMsym idx => exact ⟨_, Response.emission_legal _, rfl⟩
  | lutTsym idx =>
    by_cases hidx : Config.tables.tailN ≤ idx.toNat
    · exact ⟨_, Response.fault_legal (st := .tableDefect) (by decide) (by decide), congrArg _ (if_pos hidx)⟩
    · exact ⟨_, Response.emission_legal _, congrArg _ (if_neg hidx)⟩
  | lutMidx | lutTidx | lutClass => exact ⟨_, Response.answer_legal _, rfl⟩
  | _ => cases hi

/-! ## Every command -/

/-- What a command that answers a next state can have done: written its unit's registers, or none, and responded. -/
theorem exec_next_cases {i : Instr} {s t : State} (ht : exec i s = .next t) :
    (∃ e r, EncEffect s.enc e r ∧ t = (s.withEnc e).respond r) ∨
    (∃ d r, DecEffect i s.dec d r ∧ t = (s.withDec d).respond r) ∨
    (∃ r : Response, r.Legal ∧ t = s.respond r) := by
  cases hi : i.commandUnit with
  | enc =>
    rcases exec_enc_cases hi s.enc with ⟨-, -, hexec⟩ | ⟨-, e, r, heff, hexec⟩
    · rw [hexec s rfl] at ht; cases ht
    · rw [hexec s rfl] at ht; cases ht
      exact .inl ⟨e, r, heff, rfl⟩
  | dec =>
    obtain ⟨d, r, heff, hexec⟩ := exec_dec_cases hi s.dec s.symIn
    rw [hexec s rfl rfl] at ht; cases ht
    exact .inr (.inl ⟨d, r, heff, rfl⟩)
  | lut =>
    obtain ⟨r, hr, hexec⟩ := exec_lut_cases hi s
    rw [hexec] at ht; cases ht
    exact .inr (.inr ⟨r, hr, rfl⟩)

end Sys2Proof.Machine
end

section
/-! PROOFS. The statements on the state (10_state.md): reset, the invariants, what the two units leave alone, and streams. -/

namespace Sys2Proof.Machine

/-! ## Reset and every step -/

/-- Settles O1 (R36). -/
theorem resetPutsEveryRegisterToZero : Obligations.ResetPutsEveryRegisterToZero :=
  ⟨rfl, rfl, rfl, rfl, rfl, rfl⟩

/-- The response clause holds because no command was performed since the reset. -/
theorem legal_of_no_response {s : State} (he : s.enc = .initial) (hd : s.dec = .initial) (hr : s.resp = none) :
    s.Legal := by
  refine ⟨?_, ?_, by simp [hr]⟩
  · rw [he]; decide
  · rw [hd]; decide

/-- Settles O3 (R23, R28, R36). -/
theorem resetStateIsLegal : Obligations.ResetStateIsLegal := legal_of_no_response rfl rfl rfl

/-- A response on the ports of a state with legal registers: what every command leaves. -/
theorem State.respond_legal {s : State} {r : Response} (he : s.enc.Legal) (hd : s.dec.Legal) (hr : r.Legal) :
    (s.respond r).Legal :=
  ⟨he, hd, by simpa using hr⟩

/-- Every command keeps the invariant. -/
theorem exec_legal {i : Instr} {s t : State} (hs : s.Legal) (ht : exec i s = .next t) : t.Legal := by
  obtain ⟨he, hd, -⟩ := hs
  rcases exec_next_cases ht with ⟨e, r, heff, rfl⟩ | ⟨d, r, heff, rfl⟩ | ⟨r, hr, rfl⟩
  · exact State.respond_legal (heff.legal he) hd heff.response_legal
  · exact State.respond_legal he (heff.legal hd) heff.response_legal
  · exact State.respond_legal he hd hr

/-- Settles O4 (R23, R28, R74, R75): a step holds, resets, performs a command or rejects a word, and each keeps the
invariant. -/
theorem everyStepKeepsLegalStates : Obligations.EveryStepKeepsLegalStates := by
  intro s t hs ht
  rcases step_cases s with ⟨-, h⟩ | ⟨rest, -, h⟩ | ⟨w, y, rest, i, -, -, h⟩ | ⟨w, y, rest, e, -, -, h⟩ <;>
    rw [h] at ht
  · cases ht; exact hs
  · cases ht; exact legal_of_no_response rfl rfl rfl
  · exact exec_legal (s := s.present y rest) hs ht
  · cases ht
    obtain ⟨he, hd, -⟩ := hs
    exact State.respond_legal he hd (Response.fault_legal (by decide) (by decide))

/-- Settles O21 (R22, U7). -/
theorem onlyUnreachedPendingCountsAreRefused : Obligations.OnlyUnreachedPendingCountsAreRefused := by
  intro s i
  constructor
  · rintro ⟨q, hq⟩
    cases hi : i.commandUnit with
    | enc =>
      rcases exec_enc_cases hi s.enc with ⟨hp, hcmd, -⟩ | ⟨-, e, r, -, hexec⟩
      · exact ⟨hp, hcmd⟩
      · rw [hexec s rfl] at hq; cases hq
    | dec =>
      obtain ⟨d, r, -, hexec⟩ := exec_dec_cases hi s.dec s.symIn
      rw [hexec s rfl rfl] at hq; cases hq
    | lut =>
      obtain ⟨r, -, hexec⟩ := exec_lut_cases hi s
      rw [hexec] at hq; cases hq
  · rintro ⟨hp, rfl | ⟨b, rfl⟩⟩
    · exact ⟨_, exec_encFlush_refused hp⟩
    · exact ⟨_, exec_encByte_refused b hp⟩

/-- A command that clears `D.fail` is DEC.INIT (R27). -/
theorem exec_clears_fail {i : Instr} {s t : State} (ht : exec i s = .next t) (hs : s.dec.fail = true)
    (hclear : t.dec.fail = false) : i = .decInit := by
  rcases exec_next_cases ht with ⟨e, r, -, rfl⟩ | ⟨d, r, heff, rfl⟩ | ⟨r, -, rfl⟩
  · simp [hs] at hclear
  · exact heff.fail hs hclear
  · simp [hs] at hclear

/-- Settles O34 (R27, R182). -/
theorem onlyDecInitAndResetClearFail : Obligations.OnlyDecInitAndResetClearFail := by
  intro s t ht hs hclear
  rcases step_cases s with ⟨-, h⟩ | ⟨rest, hq, h⟩ | ⟨w, y, rest, i, hq, hw, h⟩ | ⟨w, y, rest, e, -, -, h⟩ <;>
    rw [h] at ht
  · cases ht; simp [hs] at hclear
  · exact ⟨rest, .inl hq⟩
  · obtain rfl : i = .decInit := exec_clears_fail (s := s.present y rest) ht hs hclear
    have hword : w = 0x4000 := (encode_of_decode hw).symm
    exact ⟨rest, .inr ⟨y, hword ▸ hq⟩⟩
  · cases ht; simp [State.illegal, hs] at hclear

/-! ## The two units -/

/-- Settles O46 (R38): the effect of a command is one and the same in every state with its unit's registers. -/
theorem commandsOfOneUnitIgnoreTheOther : Obligations.CommandsOfOneUnitIgnoreTheOther := by
  constructor
  · intro s t i d hi ht
    rcases exec_enc_cases hi s.enc with ⟨-, -, hexec⟩ | ⟨-, e, r, -, hexec⟩
    · rw [hexec s rfl] at ht; cases ht
    · rw [hexec s rfl] at ht; cases ht
      exact ⟨rfl, rfl, rfl, hexec { s with dec := d } rfl⟩
  · intro s t i e hi ht
    obtain ⟨d, r, -, hexec⟩ := exec_dec_cases hi s.dec s.symIn
    rw [hexec s rfl rfl] at ht; cases ht
    exact ⟨rfl, rfl, rfl, hexec { s with enc := e } rfl rfl⟩

/-- From a legal encoder every ENC command has an effect, the same in every state with these registers (R108). -/
theorem exec_enc_of_legal {i : Instr} (hi : i.commandUnit = .enc) {e : Enc} (he : e.Legal) :
    ∃ e' r, EncEffect e e' r ∧ ∀ s : State, s.enc = e → exec i s = .next ((s.withEnc e').respond r) := by
  rcases exec_enc_cases hi e with ⟨hp, -, -⟩ | ⟨-, heff⟩
  · exact absurd he.1 (by omega)
  · exact heff

/-- An input is of one unit only. -/
theorem Input.isOf_ne {u v : CommandUnit} {x : Input} (hx : x.isOf u = true) (huv : u ≠ v) : x.isOf v = false := by
  obtain ⟨w, y, i, rfl, hw, rfl⟩ := Input.isOf_eq_true.mp hx
  simp [Input.isOf, hw, huv]

/-- A run of both units' commands ends in `t` with the outputs `out`; each unit's registers and outputs are those of the run of
its own commands, which ends in `te` with `oute` for the encoder and in `td` with `outd` for the decoder. -/
structure RunsAgree (t te td : State) (out oute outd : List Response) : Prop where
  enc : t.enc = te.enc
  dec : t.dec = td.dec
  codes : emittedCodes out = emittedCodes oute
  symbols : emittedSymbols out = emittedSymbols oute
  bytes : emittedBytes out = emittedBytes outd

section
variable {t te td : State} {out oute outd : List Response} {r : Response}

/-- An ENC command's response, which holds no byte, joins the whole run and the encoder's. -/
theorem RunsAgree.cons_enc (h : RunsAgree t te td out oute outd) (hr : r.bytes = []) :
    RunsAgree t te td (r :: out) (r :: oute) outd where
  enc := h.enc
  dec := h.dec
  codes := by rw [emittedCodes_cons, h.codes, ← emittedCodes_cons]
  symbols := by rw [emittedSymbols_cons, h.symbols, ← emittedSymbols_cons]
  bytes := by rw [emittedBytes_cons, hr, List.nil_append, h.bytes]

/-- A DEC command's response, which holds no symbol, joins the whole run and the decoder's. -/
theorem RunsAgree.cons_dec (h : RunsAgree t te td out oute outd) (hkind : r.kind = .none) (hsym : r.symOut = none) :
    RunsAgree t te td (r :: out) oute (r :: outd) where
  enc := h.enc
  dec := h.dec
  codes := by
    have hnone : emittedCodes [r] = [] := by simp [emittedCodes, Response.code, hkind]
    rw [emittedCodes_cons, hnone, List.nil_append, h.codes]
  symbols := by rw [emittedSymbols_cons, hsym, Option.toList_none, List.nil_append, h.symbols]
  bytes := by rw [emittedBytes_cons, h.bytes, ← emittedBytes_cons]

end

/-- R38, with three runs side by side: the whole sequence from `s`, its ENC commands from a state with the encoder of `s`, its
DEC commands from a state with the decoder of `s`. -/
theorem interleaved_runs (ins : List Input) :
    ∀ s se sd : State, s.enc.Legal → se.enc = s.enc → sd.dec = s.dec →
    (∀ x ∈ ins, x.isOf .enc = true ∨ x.isOf .dec = true) →
    ∃ (t te td : State) (out oute outd : List Response),
      performAll ins s = .next (t, out) ∧
      performAll (ins.filter (Input.isOf .enc)) se = .next (te, oute) ∧
      performAll (ins.filter (Input.isOf .dec)) sd = .next (td, outd) ∧
      RunsAgree t te td out oute outd := by
  induction ins with
  | nil =>
    intro s se sd _ hse hsd _
    exact ⟨s, se, sd, [], [], [], rfl, rfl, rfl, hse.symm, hsd.symm, rfl, rfl, rfl⟩
  | cons x rest ih =>
    intro s se sd hs hse hsd hall
    have hrest := fun x hx => hall x (List.mem_cons_of_mem _ hx)
    rcases hall x List.mem_cons_self with hx | hx
    · have hother : ¬ x.isOf .dec = true := by simp [Input.isOf_ne hx]
      rw [List.filter_cons_of_pos hx, List.filter_cons_of_neg hother]
      obtain ⟨w, y, i, rfl, hw, hi⟩ := Input.isOf_eq_true.mp hx
      obtain ⟨e, r, heff, hexec⟩ := exec_enc_of_legal hi hs
      obtain ⟨t, te, td, out, oute, outd, hrun, hrune, hrund, hagree⟩ :=
        ih (((s.present y []).withEnc e).respond r) (((se.present y []).withEnc e).respond r) sd
          (heff.legal hs) rfl hsd hrest
      exact ⟨t, te, td, r :: out, r :: oute, outd, performAll_command hw (hexec _ rfl) hrun,
        performAll_command hw (hexec _ hse) hrune, hrund, hagree.cons_enc heff.no_bytes⟩
    · have hother : ¬ x.isOf .enc = true := by simp [Input.isOf_ne hx]
      rw [List.filter_cons_of_pos hx, List.filter_cons_of_neg hother]
      obtain ⟨w, y, i, rfl, hw, hi⟩ := Input.isOf_eq_true.mp hx
      obtain ⟨d, r, heff, hexec⟩ := exec_dec_cases hi s.dec y
      obtain ⟨hkind, hsym⟩ := heff.no_symbol
      obtain ⟨t, te, td, out, oute, outd, hrun, hrune, hrund, hagree⟩ :=
        ih (((s.present y []).withDec d).respond r) se (((sd.present y []).withDec d).respond r)
          hs hse rfl hrest
      exact ⟨t, te, td, r :: out, oute, r :: outd, performAll_command hw (hexec _ rfl rfl) hrun, hrune,
        performAll_command hw (hexec _ hsd rfl) hrund, hagree.cons_dec hkind hsym⟩

/-- Settles O47 (R38). -/
theorem interleavedStreamsAreIndependent : Obligations.InterleavedStreamsAreIndependent := by
  intro ins s hs hall
  obtain ⟨t, te, td, out, oute, outd, hrun, hrune, hrund, hagree⟩ :=
    interleaved_runs ins s s s hs.1 rfl rfl hall
  exact ⟨t, te, td, out, oute, outd, hrun, hrune, hrund, hagree.enc, hagree.dec, hagree.codes, hagree.symbols,
    hagree.bytes⟩

/-! ## Streams -/

/-- One ENC.BYTE from a legal encoder: it is performed and adds 8 pending bits modulo 11 (R105, R108). -/
theorem exec_encByte_counts {s : State} (b : Byte) (hs : s.enc.Legal) :
    ∃ t, exec (.encByte b) s = .next t ∧ t.enc.Legal ∧
      t.enc.pending.toNat = (s.enc.pending.toNat + 8) % 11 ∧ t.dec = s.dec :=
  ⟨_, exec_encByte b hs.1, Enc.takeByte_legal hs b, Enc.takeByte_pending hs.1 b, rfl⟩

/-- ENC.BYTE commands from any legal encoder: each adds 8 pending bits modulo 11. -/
theorem performAll_encBytes (bs : List Byte) :
    ∀ s : State, s.enc.Legal →
    ∃ t out, performAll (bs.map fun b => .ofInstr (.encByte b)) s = .next (t, out) ∧
      t.enc.Legal ∧ t.enc.pending.toNat = (s.enc.pending.toNat + 8 * bs.length) % 11 ∧ t.dec = s.dec := by
  induction bs with
  | nil =>
    intro s hs
    exact ⟨s, [], rfl, hs, (Nat.mod_eq_of_lt (Nat.lt_succ_of_le hs.1)).symm, rfl⟩
  | cons b bs ih =>
    intro s hs
    obtain ⟨t, hexec, ht, hpend, hdec⟩ := exec_encByte_counts (s := s.present Config.idleSymbol []) b hs
    obtain ⟨u, out, hrun, hu, hpendu, hdecu⟩ := ih t ht
    refine ⟨u, _, performAll_ofInstr hexec hrun, hu, ?_, hdecu.trans hdec⟩
    rw [hpendu, hpend, State.present_enc, List.length_cons]
    omega

/-- Settles O50 (R23). -/
theorem pendingAfterKBytes : Obligations.PendingAfterKBytes := by
  intro bs s hs
  simpa [hs] using performAll_encBytes bs s (by rw [hs]; decide)

/-- R122 in exact arithmetic. -/
theorem Dec.advanceResidue_residue (d : Dec) :
    d.advanceResidue.residue.toNat = (d.residue.toNat + 11) % 8 := by
  simp only [Dec.advanceResidue, BitVec.toNat_ofNat]
  omega

/-- One DEC.MAIN with `L = 0` while `D.fail = 0`: 11 bits join the pending ones, the whole bytes leave, the rest stays (R123 to
R125), and the residue grows by 11 modulo 8 (R122). -/
theorem exec_decMain_counts {s : State} (idx : Index) (hf : s.dec.fail = false) :
    ∃ t bytes, exec (.decMain false idx) s = .next t ∧ t.resp = some (.ofBytes bytes) ∧
      t.dec.Legal ∧ t.dec.fail = false ∧
      t.dec.pending.toNat = (s.dec.pending.toNat + 11) % 8 ∧
      t.dec.residue.toNat = (s.dec.residue.toNat + 11) % 8 ∧
      bytes.length = (s.dec.pending.toNat + 11) / 8 ∧ t.enc = s.enc := by
  obtain ⟨hbytes, hpend⟩ := Dec.append_counts s.dec.advanceResidue 11 idx.toNat le_rfl
  exact ⟨s.takeMain false idx, _, congrArg Host.Outcome.next (State.whileLive_live s _ hf), rfl,
    Dec.append_stage_lt _ _ _ le_rfl, hf, hpend, Dec.advanceResidue_residue s.dec, hbytes, rfl⟩

/-- DEC.MAIN commands with `L = 0` from any legal decoder that has not failed: the bits are counted as one, for the pending
ones, the bytes and the residue. -/
theorem performAll_decMains (idxs : List Index) :
    ∀ s : State, s.dec.Legal → s.dec.fail = false →
    ∃ t out, performAll (idxs.map fun i => .ofInstr (.decMain false i)) s = .next (t, out) ∧
      t.dec.Legal ∧ t.dec.fail = false ∧
      t.dec.pending.toNat = (s.dec.pending.toNat + 11 * idxs.length) % 8 ∧
      t.dec.residue.toNat = (s.dec.residue.toNat + 11 * idxs.length) % 8 ∧
      (emittedBytes out).length = (s.dec.pending.toNat + 11 * idxs.length) / 8 ∧ t.enc = s.enc := by
  induction idxs with
  | nil =>
    intro s hs hf
    have hp := s.dec.pending.isLt
    exact ⟨s, [], rfl, hs, hf, (Nat.mod_eq_of_lt hp).symm, (Nat.mod_eq_of_lt s.dec.residue.isLt).symm,
      (Nat.div_eq_of_lt hp).symm, rfl⟩
  | cons idx idxs ih =>
    intro s hs hf
    obtain ⟨t, bytes, hexec, hresp, ht, hft, hpend, hres, hbytes, henc⟩ :=
      exec_decMain_counts (s := s.present Config.idleSymbol []) idx hf
    obtain ⟨u, out, hrun, hu, hfu, hpendu, hresu, hbytesu, hencu⟩ := ih t ht hft
    rw [State.present_dec] at hpend hres hbytes
    refine ⟨u, _, performAll_ofInstr hexec hrun, hu, hfu, ?_, ?_, ?_, hencu.trans henc⟩
    · rw [hpendu, hpend, List.length_cons]; omega
    · rw [hresu, hres, List.length_cons]; omega
    · have hfirst : (Response.ofBytes bytes).bytes = bytes := rfl
      rw [hresp, Option.toList_some, List.singleton_append, emittedBytes_cons, List.length_append, hfirst,
        hbytes, hbytesu, hpend, List.length_cons]
      omega

/-- Settles O51 (R28, R134). -/
theorem pendingEqualsResidueOnMainStreams : Obligations.PendingEqualsResidueOnMainStreams := by
  intro idxs s hs
  obtain ⟨t, out, hrun, hlegal, hfail, hpend, hres, hbytes, henc⟩ :=
    performAll_decMains idxs s (by rw [hs]; decide) (by rw [hs])
  have hp0 : s.dec.pending.toNat = 0 := by rw [hs]; rfl
  have hr0 : s.dec.residue.toNat = 0 := by rw [hs]; rfl
  exact ⟨t, out, hrun, hlegal, hfail, by omega, by omega, by omega, henc⟩

end Sys2Proof.Machine
end

section
/-! PROOFS. The statement on sequences of inputs (20_memory.md R62): no command reads or writes the inputs that wait behind it,
so performing each input alone and stepping through the whole sequence pass through the same states. -/

namespace Sys2Proof.Machine

/-! ## What waits behind a command -/

/-- The response of a LUT command depends on `sym_in` alone (R150). -/
theorem exec_lut_uniform {i : Instr} (hi : i.commandUnit = .lut) (y : Symbol) :
    ∃ r, ∀ s : State, s.symIn = y → exec i s = .next (s.respond r) := by
  cases i with
  | lutMsym idx => exact ⟨_, fun _ _ => rfl⟩
  | lutTsym idx =>
    by_cases hidx : Config.tables.tailN ≤ idx.toNat
    · exact ⟨.fault .tableDefect, fun _ _ => congrArg _ (if_pos hidx)⟩
    · exact ⟨_, fun _ _ => congrArg _ (if_neg hidx)⟩
  | lutMidx => exact ⟨.answer (mainSearch y), by rintro s rfl; rfl⟩
  | lutTidx => exact ⟨.answer (tailSearch y), by rintro s rfl; rfl⟩
  | lutClass => exact ⟨.answer (classify y), by rintro s rfl; rfl⟩
  | _ => cases hi

/-- A command does the same whatever waits behind it. -/
theorem exec_advance {i : Instr} {s t : State} (q : List Input) (ht : exec i s = .next t) :
    exec i (s.advance q) = .next (t.advance q) := by
  cases hi : i.commandUnit with
  | enc =>
    rcases exec_enc_cases hi s.enc with ⟨-, -, hexec⟩ | ⟨-, e, r, -, hexec⟩
    · rw [hexec s rfl] at ht; cases ht
    · rw [hexec s rfl] at ht; cases ht
      exact hexec (s.advance q) rfl
  | dec =>
    obtain ⟨d, r, -, hexec⟩ := exec_dec_cases hi s.dec s.symIn
    rw [hexec s rfl rfl] at ht; cases ht
    exact hexec (s.advance q) rfl rfl
  | lut =>
    obtain ⟨r, hexec⟩ := exec_lut_uniform hi s.symIn
    rw [hexec s rfl] at ht; cases ht
    exact hexec (s.advance q) rfl

/-- An input at the head of a sequence is performed as if presented alone, and the rest is left waiting (R62, R70). -/
theorem step_advance_cons {x : Input} {s t : State} (rest : List Input) (ht : step (s.advance [x]) = .next t) :
    step (s.advance (x :: rest)) = .next (t.advance rest) := by
  rcases x with ⟨w, y⟩ | _
  · rcases hw : decode w with e | i
    · simp only [step, State.advance_queue, hw] at ht ⊢
      cases ht; rfl
    · simp only [step, State.advance_queue, hw] at ht ⊢
      exact exec_advance rest ht
  · cases ht; rfl

/-! ## The fold and the run -/

/-- A fold that ends performed its first input and folded over the rest. -/
theorem performAll_cons_next {x : Input} {rest : List Input} {s u : State} {out : List Response}
    (h : performAll (x :: rest) s = .next (u, out)) :
    ∃ t outRest, step (s.advance [x]) = .next t ∧ performAll rest t = .next (u, outRest) := by
  unfold performAll at h
  split at h
  case h_3 t ht =>
    split at h
    case h_3 outRest hrest => cases h; exact ⟨t, outRest, ht, hrest⟩
    all_goals cases h
  all_goals cases h

theorem run_succ_of_step {k : Nat} {s t : State} (h : step s = .next t) :
    Host.Core.run Sys2Proof.core (k + 1) s = Host.Core.run Sys2Proof.core k t := by
  have hcore : Sys2Proof.core.step s = .next t := h
  simp only [Host.Core.run, hcore]

/-- Settles O9 (R62, R70), by induction on the sequence. -/
theorem sequencesArePerformedInOrder : Obligations.SequencesArePerformedInOrder := by
  intro ins
  induction ins with
  | nil =>
    intro s t out h
    cases h; rfl
  | cons x rest ih =>
    intro s u out h
    obtain ⟨t, outRest, ht, hrest⟩ := performAll_cons_next h
    exact (run_succ_of_step (step_advance_cons rest ht)).trans (ih t u outRest hrest)

end Sys2Proof.Machine
end

section
/-! PROOFS. The statements on command words (30_encoding.md R70 to R76): the decoder against the encoder, against the rows of
the opcode map and against the fields read as numbers, and what a step does with a word. -/

namespace Sys2Proof.Machine

/-! ## Words and their commands -/

/-- Settles O10 (R71 to R73). -/
theorem decodeOfEncodeIsTheCommand : Obligations.DecodeOfEncodeIsTheCommand := decode_encode

/-- Settles O11 (R71 to R73). -/
theorem encodeOfDecodeIsTheWord : Obligations.EncodeOfDecodeIsTheWord := fun _ _ => encode_of_decode

/-- Settles O14 (R73, R79). -/
theorem writtenWordsDecode : Obligations.WrittenWordsDecode :=
  ⟨decode_encode (.decMain true 255), decode_encode (.encByte 0x31), decode_encode .encFlush,
    decode_encode (.decTail true 3), decode_encode (.decNone false), decode_encode (.lutMsym 393),
    decode_encode (.lutTsym 7), decode_encode (.decSym true)⟩

/-! ## Words and the rows of the opcode map -/

/-- Every mask of the map covers the whole opcode, so a row is selected field by field (R73). -/
theorem selects_iff {r : OpcodeRow} (hr : r ∈ opcodeMap) (w : CmdWord) :
    r.selects w = true ↔ opField w = opField r.value ∧
      (lastField w && lastField r.mask) = lastField r.value ∧
      argField w &&& argField r.mask = argField r.value := by
  have hmask : opField r.mask = 0xF := by
    revert r; decide
  have hand : w &&& r.mask =
      cmdWord (opField w) (lastField w && lastField r.mask) (argField w &&& argField r.mask) := by
    rw [← cmdWord_and, ← hmask, cmdWord_fields, cmdWord_fields]
  rw [OpcodeRow.selects, beq_iff_eq, hand]
  constructor
  · intro h
    simp [← h]
  · rintro ⟨hop, hlast, harg⟩
    rw [hop, hlast, harg, cmdWord_fields]

/-- The rows differ in their opcodes (R73). -/
theorem opcodeMap_opField_injective {r₁ r₂ : OpcodeRow} (h₁ : r₁ ∈ opcodeMap) (h₂ : r₂ ∈ opcodeMap)
    (h : opField r₁.value = opField r₂.value) : r₁ = r₂ := by
  have hrows : ∀ p ∈ opcodeMap, ∀ q ∈ opcodeMap, opField p.value = opField q.value → p = q := by decide
  exact hrows r₁ h₁ r₂ h₂ h

/-- The word of a command selects the row of its mnemonic (R73). -/
theorem encode_selects_row : ∀ i : Instr, Laws.EncodeSelectsRow.Statement i
  | .encInit => Laws.EncodeSelectsRow.encInit
  | .encByte b => Laws.EncodeSelectsRow.encByte b
  | .encFlush => Laws.EncodeSelectsRow.encFlush
  | .decInit => Laws.EncodeSelectsRow.decInit
  | .decMain last idx => Laws.EncodeSelectsRow.decMain last idx
  | .decTail last idx => Laws.EncodeSelectsRow.decTail last idx
  | .decNone last => Laws.EncodeSelectsRow.decNone last
  | .decEnd => Laws.EncodeSelectsRow.decEnd
  | .lutMsym idx => Laws.EncodeSelectsRow.lutMsym idx
  | .lutTsym idx => Laws.EncodeSelectsRow.lutTsym idx
  | .lutMidx => Laws.EncodeSelectsRow.lutMidx
  | .lutTidx => Laws.EncodeSelectsRow.lutTidx
  | .lutClass => Laws.EncodeSelectsRow.lutClass
  | .decSym last => Laws.EncodeSelectsRow.decSym last

/-- ENC.BYTE's mask leaves the low byte of the argument free (R72, R73). -/
theorem byteGuardField_eq_zero_of_and {w : CmdWord} (h : argField w &&& 0x700 = 0) : byteGuardField w = 0 := by
  apply BitVec.eq_of_getLsbD_eq
  intro i hi
  have hbit : (argField w &&& 0x700).getLsbD (8 + i) = false := by rw [h]; exact BitVec.getLsbD_zero
  have hmask : (0x700 : Index).getLsbD (8 + i) = true := by interval_cases i <;> decide
  rw [BitVec.getLsbD_and, hmask, Bool.and_true] at hbit
  have hi' : 8 + i < 11 := by omega
  simpa [byteGuardField, argField, hi, hi'] using hbit

/-- A row whose mask is full is selected by its own `match` word alone (R73). -/
theorem value_eq_of_selects_full {m : Mnemonic} {v w : CmdWord} (h : (OpcodeRow.mk m v 0xFFFF).selects w = true) :
    v = w := by
  have hw : w &&& 0xFFFF = v := beq_iff_eq.mp h
  exact hw.symm.trans BitVec.and_allOnes

theorem cmdWord_of_fields {w : CmdWord} {op : BitVec 4} {l : Bool} {a : Index} (hop : opField w = op)
    (hlast : lastField w = l) (harg : argField w = a) : cmdWord op l a = w := by
  rw [← hop, ← hlast, ← harg, cmdWord_fields]

/-- A word that selects a row is the word of a command of the row's mnemonic (R73). -/
theorem exists_encode_of_selects {w : CmdWord} {r : OpcodeRow} (hr : r ∈ opcodeMap) (h : r.selects w = true) :
    ∃ i, encode i = w ∧ i.mnemonic = r.mnemonic := by
  obtain ⟨hop, hlast, harg⟩ := (selects_iff hr w).mp h
  have last_of_mask (hm : (lastField w && true) = false) : lastField w = false := by simpa using hm
  have arg_of_mask (hm : argField w &&& BitVec.allOnes 11 = 0) : argField w = 0 :=
    BitVec.and_allOnes.symm.trans hm
  simp only [opcodeMap, List.mem_cons, List.not_mem_nil, or_false] at hr
  rcases hr with rfl | rfl | rfl | rfl | rfl | rfl | rfl | rfl | rfl | rfl | rfl | rfl | rfl | rfl
  · exact ⟨.encInit, value_eq_of_selects_full h, rfl⟩
  · exact ⟨.encByte (byteField w), cmdWord_of_fields hop (last_of_mask hlast)
      (byteArg_byteField (byteGuardField_eq_zero_of_and harg)).symm, rfl⟩
  · exact ⟨.encFlush, value_eq_of_selects_full h, rfl⟩
  · exact ⟨.decInit, value_eq_of_selects_full h, rfl⟩
  · exact ⟨.decMain (lastField w) (argField w), cmdWord_of_fields hop rfl rfl, rfl⟩
  · exact ⟨.decTail (lastField w) (argField w), cmdWord_of_fields hop rfl rfl, rfl⟩
  · exact ⟨.decNone (lastField w), cmdWord_of_fields hop rfl (arg_of_mask harg), rfl⟩
  · exact ⟨.decEnd, value_eq_of_selects_full h, rfl⟩
  · exact ⟨.lutMsym (argField w), cmdWord_of_fields hop (last_of_mask hlast) rfl, rfl⟩
  · exact ⟨.lutTsym (argField w), cmdWord_of_fields hop (last_of_mask hlast) rfl, rfl⟩
  · exact ⟨.lutMidx, value_eq_of_selects_full h, rfl⟩
  · exact ⟨.lutTidx, value_eq_of_selects_full h, rfl⟩
  · exact ⟨.lutClass, value_eq_of_selects_full h, rfl⟩
  · exact ⟨.decSym (lastField w), cmdWord_of_fields hop rfl (arg_of_mask harg), rfl⟩

/-- Settles O12 (R73, R76): a word is legal as the word of a command, and the rows differ in their opcodes. -/
theorem legalWordsSelectOneRow : Obligations.LegalWordsSelectOneRow := by
  refine ⟨fun w r hr h => ?_, fun w i h => ?_, fun w r₁ r₂ h₁ h₂ hs₁ hs₂ => ?_⟩
  · obtain ⟨i, rfl, hi⟩ := exists_encode_of_selects hr h
    exact ⟨i, decode_encode i, hi⟩
  · obtain ⟨r, hr, hm, hsel⟩ := encode_selects_row i
    exact ⟨r, hr, encode_of_decode h ▸ hsel, hm⟩
  · obtain ⟨hop₁, -⟩ := (selects_iff h₁ w).mp hs₁
    obtain ⟨hop₂, -⟩ := (selects_iff h₂ w).mp hs₂
    exact opcodeMap_opField_injective h₁ h₂ (hop₁.symm.trans hop₂)

/-! ## Illegal words -/

theorem opField_toNat (w : CmdWord) : (opField w).toNat = w.toNat / 4096 := by
  have hw := w.isLt
  rw [opField, BitVec.extractLsb'_toNat, Nat.shiftRight_eq_div_pow]
  omega

theorem lastField_eq_true (w : CmdWord) : lastField w = true ↔ w.toNat / 2048 % 2 = 1 := by
  simp [lastField, BitVec.getLsbD, Nat.testBit_eq_decide_div_mod_eq]

theorem argField_toNat (w : CmdWord) : (argField w).toNat = w.toNat % 2048 := by
  rw [argField, BitVec.extractLsb'_toNat, Nat.shiftRight_zero]

theorem argField_eq_zero (w : CmdWord) : argField w = 0 ↔ w.toNat % 2048 = 0 := by
  rw [← argField_toNat, BitVec.toNat_eq]; rfl

theorem byteGuardField_eq_zero (w : CmdWord) : byteGuardField w = 0 ↔ w.toNat % 2048 / 256 = 0 := by
  have hguard : (byteGuardField w).toNat = w.toNat % 2048 / 256 := by
    rw [byteGuardField, BitVec.extractLsb'_toNat, Nat.shiftRight_eq_div_pow]
    omega
  rw [← hguard, BitVec.toNat_eq]; rfl

theorem plainCommand_eq_error {w : CmdWord} {i : Instr} :
    (∃ e, plainCommand w i = .error e) ↔ lastField w = true ∨ argField w ≠ 0 := by
  unfold plainCommand
  split <;> [skip; split] <;> simp_all

theorem flaggedCommand_eq_error {w : CmdWord} {i : Bool → Instr} :
    (∃ e, flaggedCommand w i = .error e) ↔ argField w ≠ 0 := by
  unfold flaggedCommand
  split <;> simp_all

theorem indexedCommand_eq_error {w : CmdWord} {i : Index → Instr} :
    (∃ e, indexedCommand w i = .error e) ↔ lastField w = true := by
  unfold indexedCommand
  split <;> simp_all

theorem byteCommand_eq_error {w : CmdWord} :
    (∃ e, byteCommand w = .error e) ↔ lastField w = true ∨ byteGuardField w ≠ 0 := by
  unfold byteCommand
  split <;> [skip; split] <;> simp_all

/-- Which words are illegal, row by row of the opcode map and in exact arithmetic (R76). -/
theorem decode_eq_error_iff (w : CmdWord) :
    let op := w.toNat / 4096
    let l := w.toNat / 2048 % 2
    let arg := w.toNat % 2048
    (∃ e, decode w = .error e) ↔
      op = 0x0 ∨ op = 0xF ∨
      (op ∈ [0x1, 0x2, 0x3, 0x4, 0x8, 0x9, 0xA, 0xB, 0xC, 0xD] ∧ l = 1) ∨
      (op ∈ [0x1, 0x3, 0x4, 0x7, 0x8, 0xB, 0xC, 0xD, 0xE] ∧ arg ≠ 0) ∨
      (op = 0x2 ∧ arg / 256 ≠ 0) := by
  intro op l arg
  have hop : (opField w).toNat = op := opField_toNat w
  have hlt : op < 16 := hop ▸ (opField w).isLt
  have hlast : lastField w = true ↔ l = 1 := lastField_eq_true w
  have harg : argField w = 0#11 ↔ arg = 0 := argField_eq_zero w
  have hguard : byteGuardField w = 0#3 ↔ arg / 256 = 0 := byteGuardField_eq_zero w
  unfold decode
  rw [hop]
  clear_value op l arg
  split
  case h_2 => simp [byteCommand_eq_error, hlast, hguard]
  case h_5 | h_6 => simp
  case h_7 | h_14 => simp [flaggedCommand_eq_error, harg]
  case h_9 | h_10 => simp [indexedCommand_eq_error, hlast]
  case h_15 =>
    have hends : op = 0 ∨ op = 15 := by interval_cases op <;> simp_all
    rcases hends with rfl | rfl <;> simp
  all_goals simp [plainCommand_eq_error, hlast, harg]

/-! ## A step on a word -/

theorem step_of_decode {s : State} {w : CmdWord} {y : Symbol} {rest : List Input} {i : Instr}
    (hq : s.queue = .command w y :: rest) (hw : decode w = .ok i) : step s = exec i (s.present y rest) := by
  simp [step, hq, hw]

theorem step_of_illegal {s : State} {w : CmdWord} {y : Symbol} {rest : List Input} {e : IllegalWord}
    (hq : s.queue = .command w y :: rest) (hw : decode w = .error e) :
    step s = .next (s.present y rest).illegal := by
  simp [step, hq, hw]

/-- Settles O6 (R70). -/
theorem stepPerformsTheDecodedCommand : Obligations.StepPerformsTheDecodedCommand :=
  fun _ _ _ _ _ hq hw => step_of_decode hq hw

/-- Settles O13 (R76). -/
theorem illegalWordsAreTheseAndDoNothing : Obligations.IllegalWordsAreTheseAndDoNothing :=
  ⟨decode_eq_error_iff, fun s _ y rest _ hq hw =>
    ⟨(s.present y rest).illegal, step_of_illegal hq hw, rfl, rfl, rfl, rfl, rfl⟩⟩

/-! ## Source lines -/

/-- The command a line of a mnemonic other than `.word` stands for (R79); the number is 0 where the line has none. -/
theorem lineWord_command {m : Mnemonic} (hm : m ≠ .word) (last : Bool) (n : Nat) :
    ∃ i, lineWord m last n = encode i ∧ i.mnemonic = m ∧ (m.takesLast = true → i.lastFlag = some last) := by
  cases m with
  | word => exact absurd rfl hm
  | _ =>
    simp only [lineWord]
    exact ⟨_, rfl, rfl, by simp [Mnemonic.takesLast, Instr.lastFlag]⟩

/-- The argument of a command word, read as a number (R71). -/
theorem cmdWord_toNat_mod (op : BitVec 4) (l : Bool) (a : Index) : (cmdWord op l a).toNat % 2048 = a.toNat := by
  rw [← argField_toNat, argField_cmdWord]

/-- A number in the range of its mnemonic's field is the argument of the line's word (R72, R79). -/
theorem lineWord_number {m : Mnemonic} (hm : m ≠ .word) (last : Bool) {bound n : Nat}
    (hshape : m.operandShape = .below bound) (hn : n < bound) : (lineWord m last n).toNat % 2048 = n := by
  cases m <;> cases hshape
  case encByte =>
    simp only [lineWord, encode, cmdWord_toNat_mod, byteArg, BitVec.toNat_setWidth, BitVec.toNat_ofNat]
    omega
  case word => exact absurd rfl hm
  all_goals
    simp only [lineWord, encode, cmdWord_toNat_mod, BitVec.toNat_ofNat]
    omega

/-- Everything the assembler can do with a line: a number in range, a symbol or nothing gives the line's word, and the line
is well formed; or the line is ill formed and rejected (R79). -/
theorem assemble_cases (l : SourceLine) :
    (l.wellFormed = true ∧
      ((l.mnemonic.operandShape = .nothing ∧ l.operand = .none ∧
          assemble l = .ok (.command (lineWord l.mnemonic l.last 0) Config.idleSymbol)) ∨
        (∃ bound n, l.mnemonic.operandShape = .below bound ∧ l.operand = .number n ∧ n < bound ∧
          assemble l = .ok (.command (lineWord l.mnemonic l.last n) Config.idleSymbol)) ∨
        (∃ y, l.mnemonic.operandShape = .aSymbol ∧ l.operand = .symbol y ∧
          assemble l = .ok (.command (lineWord l.mnemonic l.last 0) y)))) ∨
    (l.wellFormed = false ∧ ∃ e, assemble l = .error e) := by
  by_cases hlast : (l.last && !l.mnemonic.takesLast) = true
  · have hflag : (!l.last || l.mnemonic.takesLast) = false := by simpa using hlast
    exact .inr ⟨by simp [SourceLine.wellFormed, hflag], .lastNotAllowed, if_pos hlast⟩
  · have hflag : (!l.last || l.mnemonic.takesLast) = true := by
      simpa [imp_iff_not_or] using hlast
    unfold assemble SourceLine.wellFormed
    rw [if_neg hlast, hflag, Bool.true_and]
    rcases l.mnemonic.operandShape with _ | bound | _ <;> rcases l.operand with _ | n | y
    case below.number =>
      by_cases hn : n < bound <;> simp [LineOperand.fits, hn]
    all_goals simp [LineOperand.fits]

/-- The word of a line other than `.word` decodes to a command of its mnemonic and flag. -/
theorem decode_lineWord {m : Mnemonic} (hm : m ≠ .word) (last : Bool) (n : Nat) :
    ∃ i, decode (lineWord m last n) = .ok i ∧ i.mnemonic = m ∧ (m.takesLast = true → i.lastFlag = some last) := by
  obtain ⟨i, hw, hi, hflag⟩ := lineWord_command hm last n
  exact ⟨i, hw ▸ decode_encode i, hi, hflag⟩

/-- Settles O15 (R79). -/
theorem wellFormedLinesAssemble : Obligations.WellFormedLinesAssemble := by
  refine ⟨fun l hl => ?_, fun l hl => ?_⟩
  · obtain ⟨-, hline⟩ := (assemble_cases l).resolve_right fun hbad => by simp [hl] at hbad
    rcases hline with ⟨hshape, hop, h⟩ | ⟨bound, n, hshape, hop, hn, h⟩ | ⟨y, hshape, hop, h⟩
    · refine ⟨_, _, h, by simp [hop], fun hm => (by rw [hm] at hshape; cases hshape), fun hm => ?_⟩
      obtain ⟨i, hi, hmn, hflag⟩ := decode_lineWord hm l.last 0
      exact ⟨i, hi, hmn, hflag, by simp [hop]⟩
    · refine ⟨_, _, h, by simp [hop], fun hm => ⟨n, hop, ?_⟩, fun hm => ?_⟩
      · rw [hm] at hshape ⊢
        cases hshape
        exact Nat.mod_eq_of_lt hn
      · obtain ⟨i, hi, hmn, hflag⟩ := decode_lineWord hm l.last n
        refine ⟨i, hi, hmn, hflag, fun k hk => ?_⟩
        cases hop.symm.trans hk
        exact lineWord_number hm l.last hshape hn
    · refine ⟨_, _, h, by simp [hop], fun hm => (by rw [hm] at hshape; cases hshape), fun hm => ?_⟩
      obtain ⟨i, hi, hmn, hflag⟩ := decode_lineWord hm l.last 0
      exact ⟨i, hi, hmn, hflag, by simp [hop]⟩
  · exact ((assemble_cases l).resolve_left fun hgood => by simp [hl] at hgood).2

end Sys2Proof.Machine
end

section
/-! PROOFS. The pseudo-instructions (30_encoding.md R80, R81): the shape of their expansions, and why their leading INIT may be
left out. What a sequence of inputs gives depends on the six registers alone (10_state.md R20, R37), and an INIT from its
unit's initial state leaves these as they are. -/

namespace Sys2Proof.Machine

/-! ## Shapes of streams -/

theorem isEncodeBody_of_bytes (bs : List Byte) : isEncodeBody (bs.map .encByte ++ [.encFlush]) = true := by
  induction bs with
  | nil => rfl
  | cons b bs ih => exact ih

/-- A body without ENC.INIT is an encode stream too (R81). -/
theorem isEncodeStream_of_body {cmds : List Instr} (h : isEncodeBody cmds = true) : isEncodeStream cmds = true := by
  unfold isEncodeStream
  split
  · cases h
  · exact h

/-- A run of symbol commands starts with a symbol command: one that has a flag `L` (R71, R81). -/
theorem isSymbolRun_head {i : Instr} {rest : List Instr} (h : isSymbolRun (i :: rest) = true) :
    i.lastFlag ≠ none := by
  unfold isSymbolRun at h
  split at h <;> simp_all

theorem isSymbolRun_cons {i : Instr} {rest : List Instr} (hi : i.lastFlag = some false)
    (h : isSymbolRun rest = true) : isSymbolRun (i :: rest) = true := by
  rcases rest with _ | ⟨j, _ | ⟨k, rest⟩⟩
  · cases h
  · cases h
  · simp [isSymbolRun, hi, h]

/-- Symbol commands flagged as `flagLast` flags them, with DEC.END behind, are a symbol run, if there is one (R80, R81). -/
theorem isSymbolRun_flagLast {α : Type} {command : Bool × α → Instr}
    (hflag : ∀ c, (command c).lastFlag = some c.1) (x : α) (xs : List α) :
    isSymbolRun ((flagLast (x :: xs)).map command ++ [.decEnd]) = true := by
  induction xs generalizing x with
  | nil => simp [flagLast, isSymbolRun, hflag]
  | cons y ys ih => exact isSymbolRun_cons (hflag (false, x)) (ih y)

/-- The expansion of a decode pseudo-instruction is a decode stream with and without its DEC.INIT (R80, R81). -/
theorem isDecodeStream_flagLast {α : Type} {command : Bool × α → Instr}
    (hflag : ∀ c, (command c).lastFlag = some c.1) (xs : List α) :
    isDecodeStream (.decInit :: (flagLast xs).map command ++ [.decEnd]) = true ∧
    isDecodeStream ((flagLast xs).map command ++ [.decEnd]) = true := by
  rcases xs with _ | ⟨x, xs⟩
  · exact ⟨rfl, rfl⟩
  · have hrun := isSymbolRun_flagLast hflag x xs
    refine ⟨by simp [isDecodeStream, hrun], ?_⟩
    unfold isDecodeStream
    split
    case h_1 hcmds => exact absurd rfl (isSymbolRun_head (hcmds ▸ hrun))
    case h_2 => rw [hrun, Bool.or_true]

/-! ## The registers alone -/

/-- A command does the same and drives the same ports in every state with these registers and this symbol. -/
theorem exec_congr (i : Instr) {s t : State} (henc : s.enc = t.enc) (hdec : s.dec = t.dec) (hsym : s.symIn = t.symIn)
    (hqueue : s.queue = t.queue) : exec i s = exec i t := by
  have hstate : ∀ r, s.respond r = t.respond r := by
    intro r; rcases s; rcases t; simp_all [State.respond]
  cases hi : i.commandUnit with
  | enc =>
    rcases exec_enc_cases hi s.enc with ⟨-, -, hexec⟩ | ⟨-, e, r, -, hexec⟩
    · rw [hexec s rfl, hexec t henc.symm]
    · rw [hexec s rfl, hexec t henc.symm]
      exact congrArg (fun u => Host.Outcome.next (u.withEnc e)) (hstate r)
  | dec =>
    obtain ⟨d, r, -, hexec⟩ := exec_dec_cases hi s.dec s.symIn
    rw [hexec s rfl rfl, hexec t hdec.symm hsym.symm]
    exact congrArg (fun u => Host.Outcome.next (u.withDec d)) (hstate r)
  | lut =>
    obtain ⟨r, hexec⟩ := exec_lut_uniform hi s.symIn
    rw [hexec s rfl, hexec t hsym.symm, hstate]

/-- A command word presented alone is performed alike from every state with these registers. -/
theorem step_command_congr (w : CmdWord) (y : Symbol) {s t : State} (henc : s.enc = t.enc) (hdec : s.dec = t.dec) :
    step (s.advance [.command w y]) = step (t.advance [.command w y]) := by
  rcases hw : decode w with e | i
  · rw [step_of_illegal rfl hw, step_of_illegal rfl hw]
    rcases s; rcases t; cases henc; cases hdec; rfl
  · rw [step_of_decode rfl hw, step_of_decode rfl hw]
    exact exec_congr i henc hdec rfl rfl

theorem performAll_cons_of_step {x : Input} {rest : List Input} {s t : State} (ht : step (s.advance [x]) = .next t)
    {α : Type} (read : List Response → α) :
    outputsOf read (performAll (x :: rest) s) =
      outputsOf (fun out => read (t.resp.toList ++ out)) (performAll rest t) := by
  have hstep : step { s with queue := [x] } = .next t := ht
  simp only [performAll, hstep]
  cases performAll rest t <;> rfl

/-- What a sequence of inputs gives depends on the six registers alone (R20, R37), by induction on the sequence. -/
theorem outputsOf_congr (ins : List Input) :
    ∀ {α : Type} (read : List Response → α) {s t : State}, s.enc = t.enc → s.dec = t.dec →
    outputsOf read (performAll ins s) = outputsOf read (performAll ins t) := by
  induction ins with
  | nil => intros; rfl
  | cons x rest ih =>
    intro α read s t henc hdec
    cases x with
    | command w y =>
      have hstep : step { s with queue := [.command w y] } = step { t with queue := [.command w y] } :=
        step_command_congr w y henc hdec
      simp only [performAll, hstep]
    | reset =>
      rw [performAll_cons_of_step (s := s) rfl, performAll_cons_of_step (s := t) rfl]
      exact ih _ rfl rfl

/-- A command that leaves the registers and answers with nothing may be left out in front of a sequence. -/
theorem outputsOf_skip {i : Instr} {s t : State} {α : Type} {read : List Response → α}
    (ht : exec i (s.present Config.idleSymbol []) = .next t) (henc : s.enc = t.enc) (hdec : s.dec = t.dec)
    (hresp : t.resp = some .quiet) (hread : ∀ out, read (.quiet :: out) = read out) (rest : List Input) :
    outputsOf read (performAll rest s) = outputsOf read (performAll (.ofInstr i :: rest) s) := by
  have hstep : step (s.advance [.ofInstr i]) = .next t := (step_of_decode rfl (decode_encode i)).trans ht
  rw [performAll_cons_of_step hstep, hresp, outputsOf_congr rest read henc hdec]
  simp only [Option.toList_some, List.singleton_append, hread]

/-- ENC.INIT may be left out from the encoder's initial state (R81, R100). -/
theorem outputsOf_skip_encInit {s : State} (hs : s.enc = .initial) (rest : List Input) :
    outputsOf emittedCodes (performAll rest s) = outputsOf emittedCodes (performAll (.ofInstr .encInit :: rest) s) :=
  have hexec : exec .encInit (s.present Config.idleSymbol []) =
      .next (((s.present Config.idleSymbol []).withEnc .initial).respond .quiet) := rfl
  outputsOf_skip hexec hs rfl rfl (emittedCodes_cons .quiet) rest

/-- DEC.INIT may be left out from the decoder's initial state (R81, R120). -/
theorem outputsOf_skip_decInit {s : State} (hs : s.dec = .initial) (rest : List Input) :
    outputsOf decodeResult (performAll rest s) = outputsOf decodeResult (performAll (.ofInstr .decInit :: rest) s) :=
  have hexec : exec .decInit (s.present Config.idleSymbol []) =
      .next ((s.present Config.idleSymbol []).startDecodeStream.respond .quiet) := rfl
  outputsOf_skip hexec rfl hs rfl (fun _ => rfl) rest

/-- The commands of DECODE, without the symbols on `sym_in` (R80). -/
def decodeCommands (syms : List Symbol) : List Instr :=
  .decInit :: (flagLast syms).map (fun c => .decSym c.1) ++ [.decEnd]

theorem decodeInputs_instr (syms : List Symbol) :
    (decodeInputs syms).map Input.instr? = (decodeCommands syms).map some := by
  simp [decodeInputs, decodeCommands, Input.ofInstr, Input.instr?, decode_encode, Except.toOption]

theorem Code.command_lastFlag (last : Bool) (c : Code) : (c.command last).lastFlag = some last := by
  cases c <;> rfl

/-- Settles O58 (R80, R81, R200). -/
theorem pseudoInstructionsAreWellShaped : Obligations.PseudoInstructionsAreWellShaped :=
  ⟨fun bs => ⟨isEncodeBody_of_bytes bs, isEncodeStream_of_body (isEncodeBody_of_bytes bs)⟩,
    isDecodeStream_flagLast fun c => c.2.command_lastFlag c.1,
    fun syms => ⟨_, decodeInputs_instr syms, isDecodeStream_flagLast (fun _ => rfl) syms⟩,
    fun _ _ hs => outputsOf_skip_encInit hs _,
    fun _ _ hs => outputsOf_skip_decInit hs _,
    fun _ _ hs => outputsOf_skip_decInit hs _⟩

end Sys2Proof.Machine
end

section
/-! PROOFS. The statements on single encoder commands (40_encoder.md R100 to R105, R108, R109), from ENC.BYTE and ENC.FLUSH in
exact arithmetic, and that from a legal state every input is performed. -/

namespace Sys2Proof.Machine

/-! ## ENC.BYTE and ENC.FLUSH in exact arithmetic -/

/-- The group of 11 bits that a byte completes, for 3 or more pending bits (R101). -/
def Enc.group (e : Enc) (b : Byte) : Nat :=
  e.stage.toNat * 2 ^ (11 - e.pending.toNat) + b.toNat / 2 ^ (e.pending.toNat - 3)

/-- The top bits of a byte that complete a group fit beside the pending ones. -/
theorem byte_top_lt {p : Nat} (hp3 : 3 ≤ p) (hp10 : p ≤ 10) (b : Byte) : b.toNat / 2 ^ (p - 3) < 2 ^ (11 - p) := by
  apply Nat.div_lt_of_lt_mul
  rw [← Nat.pow_add, show p - 3 + (11 - p) = 8 by omega]
  exact b.isLt

/-- R102: a completed group fits 11 bits. -/
theorem Enc.group_lt {e : Enc} (h : e.Legal) (hp : 3 ≤ e.pending.toNat) (b : Byte) : e.group b < 2048 := by
  obtain ⟨hp10, hstage⟩ := h
  have htop := byte_top_lt hp hp10 b
  have hmul := Nat.mul_le_mul_right (2 ^ (11 - e.pending.toNat)) hstage
  rw [← Nat.pow_add, Nat.add_sub_of_le (by omega), Nat.succ_mul] at hmul
  unfold Enc.group
  omega

/-- The completing branch of R101. -/
theorem Enc.takeByte_completes {e : Enc} (hp3 : 3 ≤ e.pending.toNat) (hp10 : e.pending.toNat ≤ 10) (b : Byte) :
    e.takeByte b =
      ({ stage := BitVec.ofNat 10 (b.toNat % 2 ^ (e.pending.toNat - 3)),
         pending := BitVec.ofNat 4 (e.pending.toNat - 3) }, .main (BitVec.ofNat 11 (e.group b))) := by
  have htop := byte_top_lt hp3 hp10 b
  have hrem : 8 - (11 - e.pending.toNat) = e.pending.toNat - 3 := by omega
  rcases Enc.takeByte_cases e b with ⟨-, heq⟩ | ⟨hshort, -⟩
  · rw [heq, hrem, Nat.and_two_pow_sub_one_eq_mod, Nat.shiftRight_eq_div_pow,
      ← Nat.shiftLeft_add_eq_or_of_lt htop, Nat.shiftLeft_eq]
    rfl
  · omega

/-- The accumulating branch of R101. -/
theorem Enc.takeByte_accumulates {e : Enc} (hp : e.pending.toNat ≤ 2) (b : Byte) :
    e.takeByte b =
      ({ stage := BitVec.ofNat 10 (e.stage.toNat * 256 + b.toNat),
         pending := BitVec.ofNat 4 (e.pending.toNat + 8) }, .none) := by
  rcases Enc.takeByte_cases e b with ⟨hfull, -⟩ | ⟨-, heq⟩
  · omega
  · rw [heq, ← Nat.shiftLeft_add_eq_or_of_lt b.isLt, Nat.shiftLeft_eq]

/-- R103: at most 2 pending bits and a byte fit the register. -/
theorem Enc.joined_lt {e : Enc} (h : e.Legal) (hp : e.pending.toNat ≤ 2) (b : Byte) :
    e.stage.toNat * 256 + b.toNat < 1024 := by
  have hb := b.isLt
  have hstage : e.stage.toNat < 2 ^ 2 := h.2.trans_le (Nat.pow_le_pow_right (by omega) hp)
  omega

/-- R105: ENC.BYTE emits a main symbol from 3 pending bits up, and nothing below. -/
theorem Enc.takeByte_kind {e : Enc} (h : e.pending.toNat ≤ 10) (b : Byte) :
    (e.takeByte b).2.kind = if 3 ≤ e.pending.toNat then .main else .none := by
  split
  case isTrue hp => rw [Enc.takeByte_completes hp h]; rfl
  case isFalse hp => rw [Enc.takeByte_accumulates (by omega)]; rfl

/-- What ENC.FLUSH emits, and that it fits the pending bits: nothing, a tail index or a main index (R104). -/
theorem Enc.remainder_bounds {e : Enc} (h : e.Legal) :
    (e.pending.toNat = 0 ∧ e.remainder = .none) ∨
    ((1 ≤ e.pending.toNat ∧ e.pending.toNat ≤ 3) ∧ e.stage.toNat < 8 ∧
      e.remainder = .tail (BitVec.ofNat 11 e.stage.toNat)) ∨
    (4 ≤ e.pending.toNat ∧ e.stage.toNat < 1024 ∧ e.remainder = .main (BitVec.ofNat 11 e.stage.toNat)) := by
  obtain ⟨-, hstage⟩ := h
  simp only [BitVec.ofNat_toNat]
  rcases Enc.remainder_cases e with h0 | ⟨h1, h3, heq⟩ | ⟨h4, heq⟩
  · exact .inl h0
  · exact .inr (.inl ⟨⟨h1, h3⟩, hstage.trans_le (Nat.pow_le_pow_right (n := 2) (by omega) h3), heq⟩)
  · exact .inr (.inr ⟨h4, e.stage.isLt, heq⟩)

/-! ## Every command from a legal state -/

/-- No ENC command faults (R108). -/
theorem EncEffect.status_ok {e e' : Enc} {r : Response} (h : EncEffect e e' r) : r.status = .ok := by
  cases h <;> rfl

/-- Settles O22 (R108, R23, R38). -/
theorem encoderCommandsEndWithOk : Obligations.EncoderCommandsEndWithOk := by
  intro s i hs hi
  obtain ⟨e, r, heff, hexec⟩ := exec_enc_of_legal hi hs
  exact ⟨_, r, hexec s rfl, rfl, heff.status_ok, rfl, heff.legal hs⟩

/-- From a legal encoder every command of every unit answers a next state. -/
theorem exec_of_legal {s : State} (hs : s.enc.Legal) (i : Instr) : ∃ t, exec i s = .next t := by
  cases hi : i.commandUnit with
  | enc =>
    obtain ⟨e, r, -, hexec⟩ := exec_enc_of_legal hi hs
    exact ⟨_, hexec s rfl⟩
  | dec =>
    obtain ⟨d, r, -, hexec⟩ := exec_dec_cases hi s.dec s.symIn
    exact ⟨_, hexec s rfl rfl⟩
  | lut =>
    obtain ⟨r, -, hexec⟩ := exec_lut_cases hi s
    exact ⟨_, hexec⟩

/-- Settles O5 (R108, R170, R180). -/
theorem legalStatesNeverStop : Obligations.LegalStatesNeverStop := by
  rintro s ⟨henc, -, -⟩
  rcases step_cases s with ⟨-, h⟩ | ⟨rest, -, h⟩ | ⟨w, y, rest, i, -, -, h⟩ | ⟨w, y, rest, e, -, -, h⟩
  · exact ⟨_, h⟩
  · exact ⟨_, h⟩
  · rw [h]; exact exec_of_legal (s := s.present y rest) henc i
  · exact ⟨_, h⟩

/-! ## The encoder's commands -/

/-- Settles O16 (R100). -/
theorem encInitClearsTheEncoder : Obligations.EncInitClearsTheEncoder := ⟨rfl, fun _ => rfl⟩

/-- The argument of a command word stands in its low bits (R71). -/
theorem cmdWord_eq_or (op : BitVec 4) (l : Bool) (a : Index) : cmdWord op l a = cmdWord op l 0 ||| a.setWidth 16 := by
  apply BitVec.eq_of_getLsbD_eq
  intro i hi
  simp only [cmdWord, BitVec.getLsbD_or, BitVec.getLsbD_append, BitVec.getLsbD_setWidth]
  by_cases harg : i < 11
  · simp [harg, hi]
  · simp [harg, BitVec.getLsbD_of_ge a i (by omega)]

/-- R72, R73: the byte stands in the low bits of ENC.BYTE's word. -/
theorem encode_encByte (b : Byte) : encode (.encByte b) = 0x2000 ||| b.setWidth 16 := by
  have harg : (byteArg b).setWidth 16 = b.setWidth 16 := by simp [byteArg]
  rw [← harg]
  exact cmdWord_eq_or 2 false (byteArg b)

/-- Settles O17 (R101). -/
theorem encByteTakesOneByte : Obligations.EncByteTakesOneByte := by
  refine ⟨encode_encByte, fun s b hs => ⟨fun hp => ⟨Enc.group_lt hs hp b, ?_⟩, fun hp => ⟨Enc.joined_lt hs hp b, ?_⟩⟩⟩
  · rw [exec_encByte b hs.1, Enc.takeByte_completes hp hs.1]; rfl
  · rw [exec_encByte b hs.1, Enc.takeByte_accumulates hp]; rfl

/-- Settles O18 (R105). -/
theorem encByteAddsEightModEleven : Obligations.EncByteAddsEightModEleven := by
  intro s b hp
  have hkind : (Response.emission (s.enc.takeByte b).2).kind = _ := Enc.takeByte_kind hp b
  refine ⟨_, _, exec_encByte b hp, rfl, Enc.takeByte_pending hp b, ?_, ?_⟩ <;>
  · rw [hkind]; split <;> simp <;> omega

/-- Settles O19 (R103): 8 to 10 bits are pending after the accumulating branch. -/
theorem accumulatingBranchIsNeverTakenTwice : Obligations.AccumulatingBranchIsNeverTakenTwice := by
  intro s b hs hp
  have hjoined := Enc.joined_lt hs hp b
  have hlegal := Enc.takeByte_legal hs b
  have hpend : (s.enc.takeByte b).1.pending.toNat = s.enc.pending.toNat + 8 := by
    rw [Enc.takeByte_pending hs.1]; omega
  refine ⟨_, exec_encByte b hs.1, ?_, hpend, hlegal, fun b' => ⟨_, _, exec_encByte b' hlegal.1, rfl, ?_⟩⟩
  · rw [State.respond_enc, State.withEnc_enc, Enc.takeByte_accumulates hp]
    exact Nat.mod_eq_of_lt hjoined
  · exact (Enc.takeByte_kind hlegal.1 b').trans (if_pos (by rw [hpend]; omega))

/-- Settles O20 (R104): of the three branches the one for the pending bits is taken. -/
theorem encFlushEmitsTheRemainder : Obligations.EncFlushEmitsTheRemainder := by
  refine ⟨rfl, fun s hs => ?_⟩
  rw [exec_encFlush hs.1]
  rcases Enc.remainder_bounds hs with ⟨h0, heq⟩ | ⟨hp, hlt, heq⟩ | ⟨hp, hlt, heq⟩ <;> rw [heq]
  · exact ⟨fun _ => rfl, fun _ _ => by omega, fun _ => by omega⟩
  · exact ⟨fun _ => by omega, fun _ _ => ⟨hlt, rfl⟩, fun _ => by omega⟩
  · exact ⟨fun _ => by omega, fun _ _ => by omega, fun _ => ⟨hlt, rfl⟩⟩

/-- Every main index is the group that its low byte completes behind its upper 3 bits (R109). -/
theorem exists_encByte_emits_main (g : Index) : ∃ (e : Enc) (b : Byte), e.Legal ∧ (e.takeByte b).2 = .main g := by
  have hg := g.isLt
  have hlegal := Enc.legal_ofNat (p := 3) (n := g.toNat / 256) (by omega) (by omega)
  refine ⟨⟨BitVec.ofNat 10 (g.toNat / 256), 3#4⟩, BitVec.ofNat 8 g.toNat, hlegal, ?_⟩
  have hgroup : Enc.group ⟨BitVec.ofNat 10 (g.toNat / 256), 3#4⟩ (BitVec.ofNat 8 g.toNat) = g.toNat := by
    simp [Enc.group]; omega
  rw [Enc.takeByte_completes le_rfl hlegal.1, hgroup]
  exact congrArg Code.main (by rw [BitVec.ofNat_toNat, BitVec.setWidth_eq])

/-- Settles O23 (R109). -/
theorem encoderEmitsTheseIndices : Obligations.EncoderEmitsTheseIndices := by
  refine ⟨?_, ?_, ?_⟩
  · intro s t b r hs ht hr
    rw [exec_encByte b hs.1] at ht; cases ht; cases hr
    have hkind : (Response.emission (s.enc.takeByte b).2).kind = _ := Enc.takeByte_kind hs.1 b
    rw [hkind]; split <;> simp
  · intro g
    obtain ⟨e, b, he, hemit⟩ := exists_encByte_emits_main g
    refine ⟨State.reset.withEnc e, _, b, _, he, exec_encByte b he.1, rfl, ?_, ?_⟩ <;>
      rw [State.withEnc_enc, hemit] <;> rfl
  · intro s t r g hs ht hr hg
    rw [exec_encFlush hs.1] at ht; cases ht; cases hr
    have hstage : (BitVec.ofNat 11 s.enc.stage.toNat).toNat = s.enc.stage.toNat :=
      Nat.mod_eq_of_lt (s.enc.stage.isLt.trans (by omega))
    rcases Enc.remainder_bounds hs with ⟨-, heq⟩ | ⟨-, hlt, heq⟩ | ⟨-, hlt, heq⟩ <;>
      rw [heq] at hg ⊢ <;> cases hg <;> rw [hstage]
    · exact ⟨hs.2, .inl ⟨rfl, hlt⟩⟩
    · exact ⟨hs.2, .inr ⟨rfl, hlt⟩⟩

end Sys2Proof.Machine
end

section
/-! PROOFS. The statements on ENCODE (40_encoder.md R106, R107): the encoder's registers hold the last bits of the bit stream
(20_memory.md R56), ENC.BYTE appends the bits of a byte and takes a full group off the front, and what is left is the
remainder that ENC.FLUSH emits. -/

namespace Sys2Proof.Machine

/-! ## Bits read as a number (R56) -/

theorem bitsValue_foldl (n : Nat) (bits : List Bool) :
    bits.foldl (fun n b => 2 * n + b.toNat) n = n * 2 ^ bits.length + bitsValue bits := by
  induction bits generalizing n with
  | nil => exact (Nat.mul_one n).symm
  | cons b bits ih =>
    rw [bitsValue, List.foldl_cons, List.foldl_cons, ih, ih (2 * 0 + b.toNat), List.length_cons]
    ring

theorem bitsValue_append (xs ys : List Bool) :
    bitsValue (xs ++ ys) = bitsValue xs * 2 ^ ys.length + bitsValue ys := by
  rw [bitsValue, List.foldl_append]
  exact bitsValue_foldl _ ys

theorem bitsValue_lt (bits : List Bool) : bitsValue bits < 2 ^ bits.length := by
  induction bits with
  | nil => decide
  | cons b bits ih =>
    have hcons := bitsValue_append [b] bits
    have hb : bitsValue [b] ≤ 1 := by cases b <;> decide
    have hmul := Nat.mul_le_mul_right (2 ^ bits.length) hb
    rw [List.singleton_append] at hcons
    rw [hcons, List.length_cons, Nat.pow_succ]
    omega

/-- A sequence cut after its first `k` bits: these are the quotient by the weight of the others, and the others the
remainder. -/
theorem bitsValue_div_mod (bits : List Bool) (k : Nat) :
    bitsValue bits / 2 ^ (bits.length - k) = bitsValue (bits.take k) ∧
    bitsValue bits % 2 ^ (bits.length - k) = bitsValue (bits.drop k) := by
  have happ := bitsValue_append (bits.take k) (bits.drop k)
  have hlt := bitsValue_lt (bits.drop k)
  rw [List.take_append_drop] at happ
  rw [List.length_drop] at happ hlt
  exact (Nat.div_mod_unique (Nat.two_pow_pos _)).mpr ⟨by rw [happ, Nat.add_comm, Nat.mul_comm], hlt⟩

@[simp] theorem byteBits_length (b : Byte) : (byteBits b).length = 8 := rfl

/-- The low `n` bits of a number, the most significant first. -/
theorem bitsValue_testBit (x n : Nat) : bitsValue ((List.range n).reverse.map x.testBit) = x % 2 ^ n := by
  induction n with
  | zero => exact (Nat.mod_one x).symm
  | succ n ih =>
    have hbit : bitsValue [x.testBit n] = (x.testBit n).toNat := Nat.zero_add _
    rw [List.range_succ, List.reverse_append, List.reverse_singleton, List.map_append, List.map_singleton,
      bitsValue_append, ih, hbit, List.length_map, List.length_reverse, List.length_range, Nat.toNat_testBit,
      Nat.mod_pow_succ]
    ring

theorem bitsValue_byteBits (b : Byte) : bitsValue (byteBits b) = b.toNat :=
  (bitsValue_testBit b.toNat 8).trans (Nat.mod_eq_of_lt b.isLt)

@[simp] theorem bitStream_cons (b : Byte) (bs : List Byte) : bitStream (b :: bs) = byteBits b ++ bitStream bs := rfl

@[simp] theorem bitStream_length (bs : List Byte) : (bitStream bs).length = 8 * bs.length := by
  induction bs with
  | nil => rfl
  | cons b bs ih => rw [bitStream_cons, List.length_append, byteBits_length, ih, List.length_cons]; ring

/-! ## The registers as pending bits -/

/-- The encoder that holds these bits, at most 10, the oldest first (R21, R22). -/
def Enc.ofBits (bits : List Bool) : Enc :=
  { stage := BitVec.ofNat 10 (bitsValue bits), pending := BitVec.ofNat 4 bits.length }

theorem Enc.ofBits_pending {w : List Bool} (hw : w.length ≤ 10) : (Enc.ofBits w).pending.toNat = w.length :=
  Nat.mod_eq_of_lt (by omega)

theorem Enc.ofBits_stage {w : List Bool} (hw : w.length ≤ 10) : (Enc.ofBits w).stage.toNat = bitsValue w :=
  Nat.mod_eq_of_lt ((bitsValue_lt w).trans_le (Nat.pow_le_pow_right (n := 2) (by omega) hw))

/-- The main symbol of the first group of 11 bits (R106). -/
abbrev groupCode (bits : List Bool) : Code := .main (BitVec.ofNat 11 (bitsValue (bits.take 11)))

/-- A group completed behind `w` takes as many of the byte's bits as `w` lacks, and leaves the others. -/
theorem take_drop_append_byteBits {w : List Bool} (hw : w.length ≤ 10) (b : Byte) :
    (w ++ byteBits b).take 11 = w ++ (byteBits b).take (11 - w.length) ∧
    (w ++ byteBits b).drop 11 = (byteBits b).drop (11 - w.length) := by
  rw [List.take_append, List.drop_append, List.take_of_length_le (by omega), List.drop_eq_nil_of_le (by omega)]
  exact ⟨rfl, rfl⟩

/-- From 3 pending bits up ENC.BYTE takes the first group off the pending bits and the byte's (R101). -/
theorem Enc.takeByte_ofBits_completes {w : List Bool} (hw3 : 3 ≤ w.length) (hw10 : w.length ≤ 10) (b : Byte) :
    (Enc.ofBits w).takeByte b = (.ofBits ((w ++ byteBits b).drop 11), groupCode (w ++ byteBits b)) := by
  have hp := Enc.ofBits_pending hw10
  have hrem : (byteBits b).length - (11 - w.length) = w.length - 3 := by rw [byteBits_length]; omega
  obtain ⟨htop, hrest⟩ := bitsValue_div_mod (byteBits b) (11 - w.length)
  obtain ⟨htake, hdrop⟩ := take_drop_append_byteBits hw10 b
  rw [bitsValue_byteBits, hrem] at htop hrest
  have hgroup : (Enc.ofBits w).group b = bitsValue ((w ++ byteBits b).take 11) := by
    rw [Enc.group, hp, Enc.ofBits_stage hw10, htop, htake, bitsValue_append, List.length_take,
      Nat.min_eq_left (by rw [byteBits_length]; omega)]
  rw [Enc.takeByte_completes (hp ▸ hw3) (hp ▸ hw10), hgroup, hp, hrest, hdrop, Enc.ofBits, List.length_drop, hrem]

/-- Up to 2 pending bits ENC.BYTE appends the byte's (R101). -/
theorem Enc.takeByte_ofBits_accumulates {w : List Bool} (hw : w.length ≤ 2) (b : Byte) :
    (Enc.ofBits w).takeByte b = (.ofBits (w ++ byteBits b), .none) := by
  have hp := Enc.ofBits_pending (w := w) (by omega)
  rw [Enc.takeByte_accumulates (hp ▸ hw), hp, Enc.ofBits_stage (by omega), Enc.ofBits,
    bitsValue_append, bitsValue_byteBits, List.length_append, byteBits_length]
  rfl

/-- ENC.FLUSH emits the pending bits as the remainder (R104). -/
theorem Enc.remainder_ofBits {w : List Bool} (hw : w.length ≤ 10) :
    [(Enc.ofBits w).remainder].filter (· != .none) = remainderCode w := by
  have hlegal : (Enc.ofBits w).Legal := Enc.legal_ofNat hw (bitsValue_lt w)
  have hbounds := Enc.remainder_bounds hlegal
  rw [Enc.ofBits_pending hw, Enc.ofBits_stage hw] at hbounds
  rcases hbounds with ⟨h0, heq⟩ | ⟨⟨h1, h3⟩, -, heq⟩ | ⟨h4, -, heq⟩ <;> rw [heq, remainderCode]
  · rw [if_pos h0]; rfl
  · rw [if_neg (by omega), if_pos h3]; rfl
  · rw [if_neg (by omega), if_neg (by omega)]; rfl

/-! ## The stream -/

/-- A full group at the front is the first one. -/
theorem regroup_succ_append {xs : List Bool} (h : 11 ≤ xs.length) (k : Nat) (ys : List Bool) :
    regroup (k + 1) (xs ++ ys) = groupCode xs :: regroup k (xs.drop 11 ++ ys) := by
  rw [regroup, List.take_append_of_le_length h, List.drop_append_of_le_length h]

/-- From every state whose encoder is `e` the commands are performed, each answers with the emission of a code, and the codes
other than `none` are `codes`. -/
def Emits (cmds : List Instr) (e : Enc) (codes : List Code) : Prop :=
  ∀ s : State, s.enc = e → ∃ (t : State) (cs : List Code),
    performAll (cmds.map .ofInstr) s = .next (t, cs.map Response.emission) ∧ cs.filter (· != .none) = codes

theorem Emits.nil (e : Enc) : Emits [] e [] := fun s _ => ⟨s, [], rfl, rfl⟩

/-- A command in front emits its code first. -/
theorem Emits.cons {i : Instr} {cmds : List Instr} {e e' : Enc} {c : Code} {codes : List Code}
    (hexec : ∀ s : State, s.enc = e → exec i s = .next ((s.withEnc e').respond (.emission c)))
    (h : Emits cmds e' codes) : Emits (i :: cmds) e ([c].filter (· != .none) ++ codes) := by
  intro s hs
  obtain ⟨t, cs, hrun, hcodes⟩ := h (((s.present Config.idleSymbol []).withEnc e').respond (.emission c)) rfl
  refine ⟨t, c :: cs, performAll_ofInstr (hexec (s.present Config.idleSymbol []) hs) hrun, ?_⟩
  rw [← hcodes, ← List.filter_append]
  rfl

theorem Emits.byte {cmds : List Instr} {e : Enc} {b : Byte} {codes : List Code} (hp : e.pending.toNat ≤ 10)
    (h : Emits cmds (e.takeByte b).1 codes) :
    Emits (.encByte b :: cmds) e ([(e.takeByte b).2].filter (· != .none) ++ codes) :=
  h.cons (by rintro s rfl; exact exec_encByte b hp)

theorem emits_flush {e : Enc} (hp : e.pending.toNat ≤ 10) :
    Emits [.encFlush] e ([e.remainder].filter (· != .none)) := by
  have hflush := (Emits.nil .initial).cons (i := .encFlush) (e := e) (c := e.remainder)
    (by rintro s rfl; exact exec_encFlush hp)
  rwa [List.append_nil] at hflush

/-- The commands of ENCODE after ENC.INIT (R80). -/
def encodeBody (bs : List Byte) : List Instr := bs.map .encByte ++ [.encFlush]

/-- From an encoder that holds the bits `w`, ENC.BYTE for each byte and ENC.FLUSH emit the groups of `w` followed by the bytes'
bit stream; by induction on the bytes. -/
theorem emits_encodeBody (bs : List Byte) :
    ∀ w : List Bool, w.length ≤ 10 →
    Emits (encodeBody bs) (.ofBits w) (regroup ((w.length + 8 * bs.length) / 11) (w ++ bitStream bs)) := by
  induction bs with
  | nil =>
    intro w hw
    have hgroups : (w.length + 8 * ([] : List Byte).length) / 11 = 0 := by rw [List.length_nil]; omega
    have hflush := emits_flush (e := .ofBits w) (by rwa [Enc.ofBits_pending hw])
    rw [Enc.remainder_ofBits hw] at hflush
    rwa [hgroups, regroup, bitStream, List.flatMap_nil, List.append_nil]
  | cons b bs ih =>
    intro w hw
    have hp : (Enc.ofBits w).pending.toNat ≤ 10 := by rwa [Enc.ofBits_pending hw]
    have hlen : (w ++ byteBits b).length = w.length + 8 := by rw [List.length_append, byteBits_length]
    rw [bitStream_cons, ← List.append_assoc]
    rcases Nat.lt_or_ge w.length 3 with hshort | hfull
    · have htake := Enc.takeByte_ofBits_accumulates (w := w) (by omega) b
      have hrest := ih (w ++ byteBits b) (by omega)
      have hgroups : w.length + 8 * (b :: bs).length = (w ++ byteBits b).length + 8 * bs.length := by
        rw [hlen, List.length_cons]; omega
      have hbyte := Emits.byte hp (by rw [htake]; exact hrest)
      rw [htake] at hbyte
      rw [hgroups]
      exact hbyte
    · have htake := Enc.takeByte_ofBits_completes hfull hw b
      have hleft : ((w ++ byteBits b).drop 11).length + 3 = w.length := by rw [List.length_drop, hlen]; omega
      have hrest := ih ((w ++ byteBits b).drop 11) (by omega)
      have hgroups : (w.length + 8 * (b :: bs).length) / 11 =
          (((w ++ byteBits b).drop 11).length + 8 * bs.length) / 11 + 1 := by
        rw [List.length_cons]; omega
      have hbyte := Emits.byte hp (by rw [htake]; exact hrest)
      rw [htake] at hbyte
      rw [hgroups, regroup_succ_append (by omega)]
      exact hbyte

/-- What ENCODE emits, whatever the encoder holds before (R106). -/
theorem emits_encodeCommands (bs : List Byte) (e : Enc) : Emits (encodeCommands bs) e (packed bs) := by
  have hbody := emits_encodeBody bs [] (Nat.zero_le _)
  rw [List.length_nil, Nat.zero_add, List.nil_append] at hbody
  exact hbody.cons (c := .none) fun _ _ => rfl

/-! ## What is read off the ports -/

theorem Response.emission_code (c : Code) : (Response.emission c).code = c := by cases c <;> rfl

theorem emittedCodes_emissions (cs : List Code) :
    emittedCodes (cs.map Response.emission) = cs.filter (· != .none) := by
  have hcode : Response.code ∘ Response.emission = id := funext Response.emission_code
  rw [emittedCodes, List.map_map, hcode, List.map_id]

/-- A code that is no code stands for no symbol (R158). -/
theorem emittedSymbols_emissions (cs : List Code) :
    emittedSymbols (cs.map Response.emission) = (cs.filter (· != .none)).filterMap Code.symbol := by
  induction cs with
  | nil => rfl
  | cons c cs ih =>
    rw [List.map_cons, emittedSymbols_cons, ih]
    cases c <;> rfl

/-- Settles O52 (R56, R106). -/
theorem encodeEmitsThePackedBitStream : Obligations.EncodeEmitsThePackedBitStream := by
  intro bs s
  obtain ⟨t, cs, hrun, hcodes⟩ := emits_encodeCommands bs s.enc s rfl
  rw [runEncode, runEncodeSymbols, hrun, ← hcodes, ← emittedSymbols_emissions, ← emittedCodes_emissions]
  exact ⟨rfl, rfl⟩

/-! ## Counts and kinds -/

/-- The full groups come first, all main symbols, and then the remainder. -/
theorem regroup_eq_append (k : Nat) (bits : List Bool) :
    ∃ groups : List Code, groups.length = k ∧ (∀ c ∈ groups, c.kind = .main) ∧
      regroup k bits = groups ++ remainderCode (bits.drop (11 * k)) := by
  induction k generalizing bits with
  | zero => exact ⟨[], rfl, List.forall_mem_nil _, rfl⟩
  | succ k ih =>
    obtain ⟨groups, hlen, hmain, heq⟩ := ih (bits.drop 11)
    refine ⟨groupCode bits :: groups, congrArg (· + 1) hlen, List.forall_mem_cons.mpr ⟨rfl, hmain⟩, ?_⟩
    rw [regroup, heq, List.drop_drop, Nat.mul_succ, Nat.add_comm]
    rfl

/-- Settles O53 (R107). -/
theorem encodeSymbolCountAndKinds : Obligations.EncodeSymbolCountAndKinds := by
  intro bs s
  obtain ⟨groups, hlen, hmain, heq⟩ := regroup_eq_append (8 * bs.length / 11) (bitStream bs)
  have hrest : ((bitStream bs).drop (11 * (8 * bs.length / 11))).length = 8 * bs.length % 11 := by
    rw [List.length_drop, bitStream_length]; omega
  refine ⟨packed bs, (encodeEmitsThePackedBitStream bs s).1, ?_⟩
  dsimp only
  rw [packed, heq, List.take_left' hlen, List.drop_left' hlen, List.length_append, hlen, remainderCode, hrest]
  generalize bitsValue _ = v
  refine ⟨?_, hmain, fun h0 => if_pos h0, fun h1 h3 => ⟨BitVec.ofNat 11 v, ?_⟩, fun h4 => ⟨BitVec.ofNat 11 v, ?_⟩⟩
  · split_ifs <;> simp only [List.length_nil, List.length_singleton] <;> omega
  · rw [if_neg (by omega), if_pos h3]
  · rw [if_neg (by omega), if_neg (by omega)]

end Sys2Proof.Machine
end

section
/-! PROOFS. The statements on single decoder commands (41_decoder.md R120 to R134, R157). The decoder's registers hold the last
undelivered bits of the stream (20_memory.md R56); a symbol of a known kind appends the bits of its index, and whole bytes
leave at the front. -/

namespace Sys2Proof.Machine

/-! ## Bits and bytes (R56) -/

theorem bitsValue_append_div (xs ys : List Bool) : bitsValue (xs ++ ys) / 2 ^ ys.length = bitsValue xs := by
  rw [bitsValue_append, Nat.mul_comm, Nat.mul_add_div (Nat.two_pow_pos _), Nat.div_eq_of_lt (bitsValue_lt ys),
    Nat.add_zero]

theorem bitsValue_append_mod (xs ys : List Bool) : bitsValue (xs ++ ys) % 2 ^ ys.length = bitsValue ys := by
  rw [bitsValue_append, Nat.mul_comm, Nat.mul_add_mod, Nat.mod_eq_of_lt (bitsValue_lt ys)]

/-- Every number below `2^n` is the value of `n` bits. -/
theorem exists_bits {x n : Nat} (h : x < 2 ^ n) : ∃ w : List Bool, w.length = n ∧ bitsValue w = x :=
  ⟨(List.range n).reverse.map x.testBit, by simp, (bitsValue_testBit x n).trans (Nat.mod_eq_of_lt h)⟩

/-- Bits of one length are told apart by their value. -/
theorem bitsValue_injective {xs : List Bool} :
    ∀ {ys : List Bool}, xs.length = ys.length → bitsValue xs = bitsValue ys → xs = ys := by
  induction xs with
  | nil => intro ys hlen _; exact (List.length_eq_zero_iff.mp hlen.symm).symm
  | cons a xs ih =>
    intro ys hlen hval
    rcases ys with _ | ⟨b, ys⟩
    · cases hlen
    have hrest : xs.length = ys.length := Nat.succ.inj hlen
    have hhead : bitsValue [a] = bitsValue [b] := by
      rw [← bitsValue_append_div [a] xs, ← bitsValue_append_div [b] ys, hrest]
      exact congrArg (· / _) hval
    have htail : bitsValue xs = bitsValue ys := by
      rw [← bitsValue_append_mod [a] xs, ← bitsValue_append_mod [b] ys, hrest]
      exact congrArg (· % _) hval
    have hab : a = b := by
      revert hhead; cases a <;> cases b <;> decide
    rw [hab, ih hrest htail]

/-- A byte cut out of 8 bits has these bits. -/
theorem byteBits_ofNat {z : List Bool} (hz : z.length = 8) : byteBits (BitVec.ofNat 8 (bitsValue z)) = z := by
  refine bitsValue_injective ((byteBits_length _).trans hz.symm) ?_
  rw [bitsValue_byteBits]
  exact Nat.mod_eq_of_lt (hz ▸ bitsValue_lt z)

theorem bitStream_append (xs ys : List Byte) : bitStream (xs ++ ys) = bitStream xs ++ bitStream ys :=
  List.flatMap_append

/-- Bytes are told apart by their bit stream. -/
theorem bitStream_injective {xs : List Byte} : ∀ {ys : List Byte}, bitStream xs = bitStream ys → xs = ys := by
  induction xs with
  | nil =>
    intro ys h
    have hlen := congrArg List.length h
    rw [bitStream_length, bitStream_length, List.length_nil] at hlen
    exact (List.length_eq_zero_iff.mp (by omega)).symm
  | cons a xs ih =>
    intro ys h
    rcases ys with _ | ⟨b, ys⟩
    · cases h
    obtain ⟨hhead, htail⟩ := List.append_inj h rfl
    have hval := congrArg bitsValue hhead
    rw [bitsValue_byteBits, bitsValue_byteBits] at hval
    rw [BitVec.eq_of_toNat_eq hval, ih htail]

/-- The number the bytes spell is the value of their bit stream. -/
theorem bytesValue_eq (bs : List Byte) : bytesValue bs = bitsValue (bitStream bs) := by
  induction bs using List.reverseRecOn with
  | nil => rfl
  | append_singleton bs b ih =>
    have hone : bitStream [b] = byteBits b := List.append_nil _
    rw [bitStream_append, hone, bitsValue_append, byteBits_length, bitsValue_byteBits, ← ih, bytesValue,
      List.foldl_append, ← bytesValue, List.foldl_cons, List.foldl_nil, Nat.mul_comm]
    rfl

/-! ## The procedure append (R124) -/

/-- The emission loop takes the bytes off the front of the bits `z`, whatever bits `y` it delivered before. -/
theorem drain_bits (passes : Nat) :
    ∀ y z : List Bool, z.length < 8 * (passes + 1) → ∃ (bs : List Byte) (w : List Bool),
      z = bitStream bs ++ w ∧ w.length < 8 ∧ drain passes (bitsValue (y ++ z)) z.length = (bs, w.length) := by
  induction passes with
  | zero => intro y z hz; exact ⟨[], z, rfl, hz, rfl⟩
  | succ passes ih =>
    intro y z hz
    rcases Nat.lt_or_ge z.length 8 with hshort | hlong
    · exact ⟨[], z, rfl, hshort, if_neg (by omega)⟩
    obtain ⟨front, rest, rfl, hfront⟩ : ∃ front rest, z = front ++ rest ∧ front.length = 8 :=
      ⟨z.take 8, z.drop 8, (List.take_append_drop 8 z).symm, List.length_take_of_le hlong⟩
    have hleft : (front ++ rest).length - 8 = rest.length := by rw [List.length_append]; omega
    have hbyte : BitVec.ofNat 8 (bitsValue (y ++ front)) = BitVec.ofNat 8 (bitsValue front) := by
      apply BitVec.eq_of_toNat_eq
      have hmod := bitsValue_append_mod y front
      rw [hfront] at hmod
      rw [BitVec.toNat_ofNat, BitVec.toNat_ofNat, hmod]
      exact (Nat.mod_eq_of_lt (hfront ▸ bitsValue_lt front)).symm
    obtain ⟨bs, w, rfl, hw, hdrain⟩ := ih (y ++ front) rest (by omega)
    refine ⟨BitVec.ofNat 8 (bitsValue front) :: bs, w, ?_, hw, ?_⟩
    · rw [bitStream_cons, byteBits_ofNat hfront, List.append_assoc]
    · rw [drain, if_pos hlong, hleft, ← List.append_assoc, hdrain, Nat.shiftRight_eq_div_pow, bitsValue_append_div,
        hbyte]

/-- The decoder has not failed and its registers hold these undelivered bits, the oldest first (R24, R25). -/
structure Dec.Holds (d : Dec) (w : List Bool) : Prop where
  fail : d.fail = false
  pending : d.pending.toNat = w.length
  stage : d.stage.toNat = bitsValue w

theorem Dec.Holds.length_lt {d : Dec} {w : List Bool} (h : d.Holds w) : w.length < 8 :=
  h.pending ▸ d.pending.isLt

theorem Dec.Holds.legal {d : Dec} {w : List Bool} (h : d.Holds w) : d.Legal := by
  rw [Dec.Legal, h.stage, h.pending]
  exact bitsValue_lt w

/-- A legal decoder that has not failed holds some bits. -/
theorem Dec.exists_holds {d : Dec} (hf : d.fail = false) (hd : d.Legal) : ∃ w, d.Holds w := by
  obtain ⟨w, hlen, hval⟩ := exists_bits hd
  exact ⟨w, hf, hlen.symm, hval.symm⟩

/-- A decoder that holds no bit has 0 in `D.stage` and `D.pending`. -/
theorem Dec.Holds.eq_of_nil {d : Dec} (h : d.Holds []) :
    d = { stage := 0, pending := 0, residue := d.residue, fail := false } := by
  obtain ⟨stage, pending, residue, fail⟩ := d
  obtain ⟨hfail, hpending, hstage⟩ := h
  cases hfail
  cases BitVec.eq_of_toNat_eq (y := 0) hpending
  cases BitVec.eq_of_toNat_eq (y := 0) hstage
  rfl

/-- `append` in exact arithmetic, for a value that fits its `n` bits (R124). -/
theorem Dec.append_eq {d : Dec} {n value left : Nat} {bs : List Byte} (hv : value < 2 ^ n)
    (hdrain : drain 2 (d.stage.toNat * 2 ^ n + value) (d.pending.toNat + n) = (bs, left)) :
    d.append n value =
      ({ d with
          stage := BitVec.ofNat 7 ((d.stage.toNat * 2 ^ n + value) % 2 ^ left)
          pending := BitVec.ofNat 3 left }, bs) := by
  have hjoin : d.stage.toNat <<< n ||| value = d.stage.toNat * 2 ^ n + value := by
    rw [← Nat.shiftLeft_add_eq_or_of_lt hv, Nat.shiftLeft_eq]
  simp only [Dec.append, hjoin, hdrain, Nat.and_two_pow_sub_one_eq_mod]

/-- `append` delivers the whole bytes of the bits held and the bits appended, and holds the rest (R124). -/
theorem Dec.append_bits {d : Dec} {w x : List Bool} (hd : d.Holds w) (hx : x.length ≤ 11) :
    ∃ (bs : List Byte) (rest : List Bool), w ++ x = bitStream bs ++ rest ∧
      (d.append x.length (bitsValue x)).2 = bs ∧ (d.append x.length (bitsValue x)).1.Holds rest := by
  have hw := hd.length_lt
  obtain ⟨bs, rest, hbits, hrest, hdrain⟩ := drain_bits 2 [] (w ++ x) (by rw [List.length_append]; omega)
  have hvalue : (bitsValue (w ++ x)) % 2 ^ rest.length = bitsValue rest := by
    rw [hbits, bitsValue_append_mod]
  have hstage : bitsValue rest < 2 ^ 7 :=
    (bitsValue_lt rest).trans_le (Nat.pow_le_pow_right (by decide) (by omega))
  rw [List.nil_append, List.length_append, ← hd.pending, bitsValue_append, ← hd.stage] at hdrain
  refine ⟨bs, rest, hbits, ?_⟩
  rw [Dec.append_eq (bitsValue_lt x) hdrain, hd.stage, ← bitsValue_append, hvalue]
  exact ⟨rfl, hd.fail, Nat.mod_eq_of_lt hrest, Nat.mod_eq_of_lt hstage⟩

/-! ## A symbol of a known kind (R123, R127) -/

/-- How many bits a code stands for (R123, R127): a main symbol 11, or fewer when last; a tail symbol as many as the byte being
assembled lacks. -/
def Dec.codeWidth (d : Dec) (last : Bool) : Code → Nat
  | .main _ => d.advanceResidue.mainWidth last
  | .tail _ => d.need
  | .none => 0

theorem Dec.codeWidth_le (d : Dec) (last : Bool) (c : Code) : d.codeWidth last c ≤ 11 := by
  cases c with
  | main idx => exact Dec.mainWidth_le _ _
  | tail idx => exact (Dec.need_le d).trans (by omega)
  | none => exact Nat.zero_le _

/-- R123 in exact arithmetic. -/
theorem Dec.mainWidth_advanceResidue (d : Dec) (last : Bool) :
    d.advanceResidue.mainWidth last = if last then 11 - (d.residue.toNat + 11) % 8 else 11 := by
  rw [Dec.mainWidth, Dec.advanceResidue_residue]

/-- A code whose index fits its width is appended (R123, R127). -/
theorem State.takeCode_of_fits (s : State) (last : Bool) {c : Code} {i : Index} (hc : c.idx = some i)
    (hi : i.toNat < 2 ^ s.dec.codeWidth last c) :
    s.takeCode last c =
      (s.withDec (s.dec.advanceResidue.append (s.dec.codeWidth last c) i.toNat).1).respond
        (.ofBytes (s.dec.advanceResidue.append (s.dec.codeWidth last c) i.toNat).2) := by
  cases c <;> cases hc
  case main => rfl
  case tail =>
    rcases State.takeTail_cases s last i with ⟨-, heq⟩ | ⟨hlarge, -⟩
    · exact heq
    · exact absurd hi (Nat.not_lt.mpr hlarge)

/-- A symbol of a known kind appends the bits of its index to those held; the whole bytes leave and the rest stays. -/
theorem Dec.takeCode_bits {d : Dec} {w x : List Bool} (hd : d.Holds w) {last : Bool} {c : Code} {i : Index}
    (hc : c.idx = some i) (hx : x.length = d.codeWidth last c) (hi : i.toNat = bitsValue x) :
    ∃ (bs : List Byte) (rest : List Bool) (d' : Dec), w ++ x = bitStream bs ++ rest ∧ d'.Holds rest ∧
      d'.residue = d.advanceResidue.residue ∧
      ∀ s : State, s.dec = d → s.takeCode last c = (s.withDec d').respond (.ofBytes bs) := by
  have hheld : d.advanceResidue.Holds w := ⟨hd.fail, hd.pending, hd.stage⟩
  obtain ⟨bs, rest, hbits, hbytes, hrest⟩ := Dec.append_bits hheld (hx ▸ d.codeWidth_le last c)
  refine ⟨bs, rest, _, hbits, hrest, rfl, ?_⟩
  rintro s rfl
  rw [State.takeCode_of_fits s last hc (by rw [hi, ← hx]; exact bitsValue_lt x), ← hx, hi, hbytes]

/-- `Dec.takeCode_bits` in numbers: the bytes emitted followed by the bits left spell the bits held followed by those of the
index. -/
theorem Dec.takeCode_value {d : Dec} (hf : d.fail = false) (hd : d.Legal) {last : Bool} {c : Code} {i : Index}
    (hc : c.idx = some i) {n : Nat} (hn : d.codeWidth last c = n) (hi : i.toNat < 2 ^ n) :
    ∃ (bs : List Byte) (rest : List Bool) (d' : Dec), d'.Holds rest ∧ d'.residue = d.advanceResidue.residue ∧
      8 * bs.length + d'.pending.toNat = d.pending.toNat + n ∧
      bytesValue bs * 2 ^ d'.pending.toNat + d'.stage.toNat = d.stage.toNat * 2 ^ n + i.toNat ∧
      ∀ s : State, s.dec = d → s.takeCode last c = (s.withDec d').respond (.ofBytes bs) := by
  obtain ⟨w, hw⟩ := Dec.exists_holds hf hd
  obtain ⟨x, rfl, hval⟩ := exists_bits hi
  obtain ⟨bs, rest, d', hbits, hrest, hres, htake⟩ := Dec.takeCode_bits hw hc hn.symm hval.symm
  refine ⟨bs, rest, d', hrest, hres, ?_, ?_, htake⟩
  · rw [hrest.pending, hw.pending, ← bitStream_length, ← List.length_append, ← List.length_append, hbits]
  · rw [hrest.pending, hrest.stage, hw.stage, bytesValue_eq, ← hval, ← bitsValue_append, ← bitsValue_append, hbits]

/-- A tail symbol that fits completes the byte being assembled (R127, R128). -/
theorem Dec.takeTail_completes {d : Dec} (hf : d.fail = false) (hd : d.Legal) (last : Bool) {idx : Index}
    (hi : idx.toNat < 2 ^ (8 - d.pending.toNat)) :
    d.stage.toNat * 2 ^ (8 - d.pending.toNat) + idx.toNat < 256 ∧
    ∀ s : State, s.dec = d → s.takeCode last (.tail idx) =
      (s.withDec { stage := 0, pending := 0
                   residue := BitVec.ofNat 3 ((d.residue.toNat + 11) % 8), fail := false }).respond
        (.ofBytes [BitVec.ofNat 8 (d.stage.toNat * 2 ^ (8 - d.pending.toNat) + idx.toNat)]) := by
  have hwidth : d.codeWidth last (.tail idx) = 8 - d.pending.toNat := rfl
  obtain ⟨bs, rest, d', hrest, hres, hlen, hval, htake⟩ := Dec.takeCode_value hf hd (c := .tail idx) rfl hwidth hi
  have hp := d.pending.isLt
  have hpending := hrest.pending
  have hrestlt := hrest.length_lt
  obtain rfl : rest = [] := List.length_eq_zero_iff.mp (by omega)
  obtain ⟨b, rfl⟩ : ∃ b, bs = [b] := List.length_eq_one_iff.mp (by omega)
  have hb : b.toNat = d.stage.toNat * 2 ^ (8 - d.pending.toNat) + idx.toNat := by
    rw [← hval, hrest.stage, hpending]
    simp [bytesValue, bitsValue]
  rw [← hb, BitVec.ofNat_toNat, BitVec.setWidth_eq]
  rw [hrest.eq_of_nil, hres] at htake
  exact ⟨b.isLt, htake⟩

/-! ## The commands -/

/-- The symbol commands of DECODE.IDX take their code, unless the decoder has failed (R121, R131). -/
theorem exec_code_command (last : Bool) (c : Code) (s : State) :
    exec (c.command last) s = .next (s.whileLive fun s => s.takeCode last c) := by
  cases c <;> rfl

theorem exec_code_command_live {s : State} (hf : s.dec.fail = false) (last : Bool) (c : Code) :
    exec (c.command last) s = .next (s.takeCode last c) := by
  rw [exec_code_command, State.whileLive_live _ _ hf]

/-- DEC.SYM does what the command of the code does to which its symbol is classified (R157). -/
theorem exec_decSym_eq {s : State} (last : Bool) {c : Code} (hc : classify s.symIn = c) :
    exec (.decSym last) s = exec (c.command last) s := by
  rw [exec_code_command, ← hc]
  rfl

theorem exec_decSym_live {s : State} (hf : s.dec.fail = false) (last : Bool) {c : Code} (hc : classify s.symIn = c) :
    exec (.decSym last) s = .next (s.takeCode last c) :=
  (exec_decSym_eq last hc).trans (exec_code_command_live hf last c)

/-- Settles O24 (R120). -/
theorem decInitClearsTheDecoder : Obligations.DecInitClearsTheDecoder := ⟨rfl, fun _ => rfl⟩

/-- DEC.MAIN with `L = 0` on what the emission loop gives (R124, R125). -/
theorem exec_decMain_of_drain {s : State} {idx : Index} {bs : List Byte} {left : Nat} (hf : s.dec.fail = false)
    (hdrain : drain 2 (s.dec.stage.toNat * 2048 + idx.toNat) (s.dec.pending.toNat + 11) = (bs, left)) :
    exec (.decMain false idx) s = .next { s with
      dec := { stage := BitVec.ofNat 7 ((s.dec.stage.toNat * 2048 + idx.toNat) % 2 ^ left)
               pending := BitVec.ofNat 3 left
               residue := BitVec.ofNat 3 ((s.dec.residue.toNat + 11) % 8), fail := false }
      resp := some (okBytes bs) } := by
  have happend := Dec.append_eq (d := s.dec.advanceResidue) idx.isLt hdrain
  have htake : s.takeCode false (.main idx) = (s.withDec (s.dec.advanceResidue.append 11 idx.toNat).1).respond
      (.ofBytes (s.dec.advanceResidue.append 11 idx.toNat).2) := rfl
  refine (exec_code_command_live hf false (.main idx)).trans ?_
  rw [htake, happend, ← hf]
  rfl

/-- Settles O25 (R125): the loop makes one pass up to 4 pending bits and two from 5 up. -/
theorem decMainNotLastDeliversWholeBytes : Obligations.DecMainNotLastDeliversWholeBytes := by
  intro s idx hf hd p v residue'
  have hp : p < 8 := s.dec.pending.isLt
  have hv : v < 2 ^ (p + 3) * 256 := by
    have hstage := Nat.mul_le_mul_right 2048 (show s.dec.stage.toNat + 1 ≤ 2 ^ p from hd)
    have hidx := idx.isLt
    rw [Nat.pow_add]
    omega
  have hbyte : v / 2 ^ (p + 3) < 256 := Nat.div_lt_of_lt_mul hv
  rcases drain_two_cases v (p + 11) (by omega) with ⟨h, -⟩ | ⟨-, h, heq⟩ | ⟨h, heq⟩
  · omega
  · refine ⟨fun _ => ⟨hbyte, ?_⟩, fun _ => by omega⟩
    rw [exec_decMain_of_drain hf heq, Nat.shiftRight_eq_div_pow]
    rfl
  · refine ⟨fun _ => by omega, fun _ => ⟨hbyte, ?_⟩⟩
    have hlow : BitVec.ofNat 8 (v / 2 ^ (p - 5) % 256) = BitVec.ofNat 8 (v / 2 ^ (p - 5)) :=
      BitVec.eq_of_toNat_eq (by simp)
    rw [exec_decMain_of_drain hf heq, hlow, Nat.shiftRight_eq_div_pow, Nat.shiftRight_eq_div_pow]
    rfl

/-- Settles O26 (R123, R124, R126). -/
theorem decMainLastDeliversItsMeaningfulBits : Obligations.DecMainLastDeliversItsMeaningfulBits := by
  intro s idx hf hd r n hidx
  have hwidth : s.dec.codeWidth true (.main idx) = n := Dec.mainWidth_advanceResidue s.dec true
  obtain ⟨bs, rest, d, hrest, hres, hlen, hval, htake⟩ :=
    Dec.takeCode_value hf hd (c := .main idx) rfl hwidth hidx
  refine ⟨bs, d, ?_, hres ▸ Dec.advanceResidue_residue s.dec, hrest.fail, hrest.legal, hlen, hval⟩
  exact (exec_code_command_live hf true (.main idx)).trans (congrArg _ (htake s rfl))

/-- Settles O27 (R123, R124). -/
theorem decMainNeverFaults : Obligations.DecMainNeverFaults := by
  intro s last idx hf r n
  have hwidth : s.dec.advanceResidue.mainWidth last = n := Dec.mainWidth_advanceResidue s.dec last
  obtain ⟨hbytes, hpend⟩ := Dec.append_counts s.dec.advanceResidue _ idx.toNat (Dec.mainWidth_le _ last)
  rw [hwidth] at hbytes hpend
  refine ⟨_, (s.dec.advanceResidue.append n idx.toNat).1, ?_, hf, Dec.advanceResidue_residue s.dec, hbytes, hpend⟩
  rw [← hwidth]
  exact exec_code_command_live hf last (.main idx)

/-- Settles O28 (R134): with `D.residue = D.pending` the last symbol's bits fill one byte or two. -/
theorem lastMainSymbolEndsOnAByte : Obligations.LastMainSymbolEndsOnAByte := by
  intro s idx hf hres
  obtain ⟨bs, d, hexec, -, -, hlen, hpend⟩ := decMainNeverFaults s true idx hf
  have hp := s.dec.pending.isLt
  rw [hres, if_pos rfl] at hlen hpend
  refine ⟨bs, d, hexec, BitVec.eq_of_toNat_eq ?_, ?_⟩
  · rw [hpend, show (0 : BitVec 3).toNat = 0 from rfl]; omega
  · rw [hlen]; split <;> omega

/-- Settles O29 (R121, R127, R128). -/
theorem decTailCompletesTheByte : Obligations.DecTailCompletesTheByte := by
  intro s last idx hf hd hidx
  obtain ⟨hlt, htake⟩ := Dec.takeTail_completes hf hd last hidx
  exact ⟨hlt, (exec_code_command_live hf last (.tail idx)).trans (congrArg _ (htake s rfl))⟩

/-- Settles O30 (R127, R171, R181). -/
theorem decTailTooLargeFaults : Obligations.DecTailTooLargeFaults := by
  intro s last idx hf hidx
  rcases State.takeTail_cases s last idx with ⟨hsmall, -⟩ | ⟨-, heq⟩
  · exact absurd hsmall (Nat.not_lt.mpr hidx)
  · exact ⟨_, (exec_code_command_live hf last (.tail idx)).trans (congrArg _ heq), rfl, rfl, rfl⟩

/-- Settles O31 (R129, R171): a failed decoder stays as it is, another one fails. -/
theorem decNoneAlwaysFaults : Obligations.DecNoneAlwaysFaults := by
  refine ⟨rfl, rfl, fun s last => ?_⟩
  have hexec := exec_code_command last .none s
  cases hf : s.dec.fail with
  | true => exact ⟨s.dec, hexec.trans (congrArg _ (State.whileLive_failed s _ hf)), hf, rfl, rfl⟩
  | false => exact ⟨_, hexec.trans (congrArg _ (State.whileLive_live s _ hf)), rfl, rfl, rfl⟩

/-- DEC.END delivers what is left and clears the registers (R130). -/
theorem exec_decEnd_live {s : State} (hf : s.dec.fail = false) :
    exec .decEnd s = .next ((s.withDec .initial).respond (.ofBytes s.dec.leftover)) :=
  congrArg Host.Outcome.next (State.whileLive_live s _ hf)

/-- Settles O32 (R130). -/
theorem decEndClearsTheDecoder : Obligations.DecEndClearsTheDecoder := by
  refine ⟨rfl, fun s hf => ⟨s.dec.leftover, exec_decEnd_live hf, ?_⟩⟩
  unfold Dec.leftover
  split <;> rfl

/-- Settles O33 (R131): a command of another unit leaves the decoder and does not read it. -/
theorem failedDecoderIsInert : Obligations.FailedDecoderIsInert := by
  refine ⟨fun s i hf hi hinit => ?_, fun s t i f hi ht => ?_⟩
  · obtain ⟨d, r, heff, hexec⟩ := exec_dec_cases hi s.dec s.symIn
    rw [hexec s rfl rfl]
    cases heff with
    | init h => exact absurd h hinit
    | dead => rfl
    | take hlive | reject hlive | finish hlive => cases hf.symm.trans hlive
  · cases hunit : i.commandUnit with
    | enc =>
      obtain ⟨hdec, -, -, hexec⟩ := commandsOfOneUnitIgnoreTheOther.1 s t i { s.dec with fail := f } hunit ht
      rw [hexec, hdec]
    | dec => exact absurd hunit hi
    | lut =>
      obtain ⟨r, hexec⟩ := exec_lut_uniform hunit s.symIn
      rw [hexec s rfl] at ht; cases ht
      exact hexec { s with dec := { s.dec with fail := f } } rfl

/-- Settles O45 (R121 to R128, R157): the search finds the symbol's own code. -/
theorem decSymDecodesTheTablesSymbols : Obligations.DecSymDecodesTheTablesSymbols := by
  constructor
  · intro s last i hf hd hsym r n hi
    have hwidth : s.dec.codeWidth last (.main i) = n := Dec.mainWidth_advanceResidue s.dec last
    obtain ⟨bs, rest, d, hrest, hres, hlen, hval, htake⟩ :=
      Dec.takeCode_value hf hd (c := .main i) rfl hwidth hi
    refine ⟨bs, d, ?_, hrest.fail, hres ▸ Dec.advanceResidue_residue s.dec, hrest.legal, hlen, hval⟩
    exact (exec_decSym_live hf last (by rw [hsym, classify_mainSym])).trans (congrArg _ (htake s rfl))
  · intro s last j hf hd hj hsym hfits
    obtain ⟨-, htake⟩ := Dec.takeTail_completes hf hd last hfits
    exact (exec_decSym_live hf last (by rw [hsym, classify_tailSym hj])).trans (congrArg _ (htake s rfl))

end Sys2Proof.Machine
end

section
/-! PROOFS. The statements on decode streams (41_decoder.md R133 to R138). DECODE.IDX and DECODE perform one symbol command per
code; on the codes of a bit stream each appends its group, so that the bytes delivered spell the stream, which ends on a byte
boundary. -/

namespace Sys2Proof.Machine

/-! ## Results of decode streams (R133) -/

theorem decodeResult_eq_ok {out : List Response} {bs : List Byte} :
    decodeResult out = .ok bs ↔ (∀ r ∈ out, r.status = .ok) ∧ emittedBytes out = bs := by
  unfold decodeResult
  split <;> simp_all

theorem decodeResult_append {out₁ out₂ : List Response} {bs₁ bs₂ : List Byte} (h₁ : decodeResult out₁ = .ok bs₁)
    (h₂ : decodeResult out₂ = .ok bs₂) : decodeResult (out₁ ++ out₂) = .ok (bs₁ ++ bs₂) := by
  obtain ⟨hok₁, rfl⟩ := decodeResult_eq_ok.mp h₁
  obtain ⟨hok₂, rfl⟩ := decodeResult_eq_ok.mp h₂
  refine decodeResult_eq_ok.mpr ⟨fun r hr => ?_, List.flatMap_append⟩
  exact (List.mem_append.mp hr).elim (hok₁ r) (hok₂ r)

/-- A sequence in two parts is performed part by part (R62). -/
theorem performAll_append {xs ys : List Input} {s t u : State} {out₁ out₂ : List Response}
    (hxs : performAll xs s = .next (t, out₁)) (hys : performAll ys t = .next (u, out₂)) :
    performAll (xs ++ ys) s = .next (u, out₁ ++ out₂) := by
  induction xs generalizing s out₁ with
  | nil => cases hxs; exact hys
  | cons x xs ih =>
    obtain ⟨v, outRest, hstep, hrest⟩ := performAll_cons_next hxs
    have hstep' : step { s with queue := [x] } = .next v := hstep
    have hout : out₁ = v.resp.toList ++ outRest := by
      simp only [performAll, hstep', hrest] at hxs
      cases hxs; rfl
    simp only [List.cons_append, performAll, hstep', ih hrest, hout, List.append_assoc]

/-- From every state whose decoder is `d` the inputs are performed, all end with `OK`, and they emit `bytes` and leave the
decoder `d'`. -/
def Delivers (ins : List Input) (d : Dec) (bytes : List Byte) (d' : Dec) : Prop :=
  ∀ s : State, s.dec = d → ∃ t out,
    performAll ins s = .next (t, out) ∧ t.dec = d' ∧ decodeResult out = .ok bytes

theorem Delivers.nil (d : Dec) : Delivers [] d [] d := fun s hs => ⟨s, [], rfl, hs, rfl⟩

theorem Delivers.append {xs ys : List Input} {d d₁ d₂ : Dec} {bs₁ bs₂ : List Byte} (h₁ : Delivers xs d bs₁ d₁)
    (h₂ : Delivers ys d₁ bs₂ d₂) : Delivers (xs ++ ys) d (bs₁ ++ bs₂) d₂ := by
  intro s hs
  obtain ⟨t, out₁, hxs, ht, hres₁⟩ := h₁ s hs
  obtain ⟨u, out₂, hys, hu, hres₂⟩ := h₂ t ht
  exact ⟨u, out₁ ++ out₂, performAll_append hxs hys, hu, decodeResult_append hres₁ hres₂⟩

/-- One command that emits bytes. -/
theorem Delivers.single {w : CmdWord} {y : Symbol} {i : Instr} {d d' : Dec} {bs : List Byte} (hw : decode w = .ok i)
    (hexec : ∀ s : State, s.dec = d → s.symIn = y → exec i s = .next ((s.withDec d').respond (.ofBytes bs))) :
    Delivers [.command w y] d bs d' := by
  intro s hs
  refine ⟨_, _, performAll_command hw (hexec (s.present y []) hs rfl) rfl, rfl, decodeResult_eq_ok.mpr ⟨?_, ?_⟩⟩
  · intro r hr
    cases List.mem_singleton.mp hr
    rfl
  · exact List.append_nil bs

/-- DEC.INIT starts from any decoder (R120). -/
theorem delivers_decInit (d : Dec) : Delivers [.ofInstr .decInit] d [] .initial :=
  .single (decode_encode _) fun _ _ _ => rfl

/-- With nothing held DEC.END emits nothing (R130). -/
theorem exec_decEnd_silent {s : State} (h : s.dec.Holds []) :
    exec .decEnd s = .next ((s.withDec .initial).respond (.ofBytes [])) := by
  have hleft : s.dec.leftover = [] := by rw [h.eq_of_nil]; rfl
  rw [exec_decEnd_live h.fail, hleft]

theorem delivers_decEnd {d : Dec} (h : d.Holds []) : Delivers [.ofInstr .decEnd] d [] .initial :=
  .single (decode_encode _) fun _ hs _ => exec_decEnd_silent (hs ▸ h)

/-! ## The codes of a bit stream -/

/-- The input presents a symbol command that takes this code with this flag, unless the decoder has failed. -/
def Input.Takes (x : Input) (last : Bool) (c : Code) : Prop :=
  ∃ w y i, x = .command w y ∧ decode w = .ok i ∧
    ∀ s : State, s.symIn = y → exec i s = .next (s.whileLive fun s => s.takeCode last c)

theorem takes_code_command (last : Bool) (c : Code) : (Input.ofInstr (c.command last)).Takes last c :=
  ⟨_, _, _, rfl, decode_encode _, fun s _ => exec_code_command last c s⟩

theorem takes_decSym (last : Bool) (y : Symbol) :
    (Input.command (encode (.decSym last)) y).Takes last (classify y) :=
  ⟨_, _, _, rfl, decode_encode _, by rintro s rfl; rfl⟩

/-- A code that stands for the bits `x` delivers the whole bytes of the bits held and of `x`. -/
theorem Input.Takes.delivers {x : Input} {last : Bool} {c : Code} (hx : x.Takes last c) {d : Dec} {w bits : List Bool}
    (hd : d.Holds w) {i : Index} (hc : c.idx = some i) (hlen : bits.length = d.codeWidth last c)
    (hi : i.toNat = bitsValue bits) :
    ∃ (bs : List Byte) (rest : List Bool) (d' : Dec), w ++ bits = bitStream bs ++ rest ∧ d'.Holds rest ∧
      d'.residue = d.advanceResidue.residue ∧ Delivers [x] d bs d' := by
  obtain ⟨word, y, instr, rfl, hword, hexec⟩ := hx
  obtain ⟨bs, rest, d', hbits, hrest, hres, htake⟩ := Dec.takeCode_bits hd hc hlen hi
  refine ⟨bs, rest, d', hbits, hrest, hres, .single hword ?_⟩
  intro s hs hy
  rw [hexec s hy, State.whileLive_live _ _ (hs ▸ hd.fail), htake s hs]

/-- The flag `L` is set where nothing follows (R80). -/
theorem flagLast_cons {α : Type} (a : α) (l : List α) : flagLast (a :: l) = (l.isEmpty, a) :: flagLast l := by
  cases l <;> rfl

/-- The index of a group is its value. -/
theorem toNat_ofNat_bitsValue {bits : List Bool} (h : bits.length ≤ 11) :
    (BitVec.ofNat 11 (bitsValue bits)).toNat = bitsValue bits :=
  Nat.mod_eq_of_lt ((bitsValue_lt bits).trans_le (Nat.pow_le_pow_right (by decide) h))

/-- Nothing is left to emit exactly when no bit is left. -/
theorem regroup_eq_nil {bits : List Bool} (h : regroup (bits.length / 11) bits = []) : bits = [] := by
  rcases hk : bits.length / 11 with _ | k
  · rw [hk, regroup, remainderCode] at h
    split_ifs at h with h0
    exact List.length_eq_zero_iff.mp h0
  · rw [hk, regroup] at h
    cases h

/-- The code of the remainder stands for its bits, if these end on a byte boundary behind the bits held: a tail symbol fills the
byte being assembled, and a last main symbol has as many bits as the residue says (R126, R127, R134). -/
theorem remainderCode_width {bits w : List Bool} {d : Dec} (hd : d.Holds w) (hres : d.residue.toNat = w.length)
    (hend : 8 ∣ w.length + bits.length) (hlong : bits.length < 11) :
    (bits = [] ∧ remainderCode bits = []) ∨
    ∃ c, remainderCode bits = [c] ∧ c.idx = some (BitVec.ofNat 11 (bitsValue bits)) ∧
      bits.length = d.codeWidth true c := by
  have hw := hd.length_lt
  unfold remainderCode
  split_ifs with h0 h3
  · exact .inl ⟨List.length_eq_zero_iff.mp h0, rfl⟩
  · refine .inr ⟨_, rfl, rfl, ?_⟩
    rw [Dec.codeWidth, Dec.need, hd.pending]
    omega
  · refine .inr ⟨_, rfl, rfl, ?_⟩
    rw [Dec.codeWidth, Dec.mainWidth_advanceResidue, hres, if_pos rfl]
    omega

/-- How many bits are left when the whole bytes have left. -/
theorem length_left {w bits rest : List Bool} {bs : List Byte} (h : w ++ bits = bitStream bs ++ rest)
    (hrest : rest.length < 8) : rest.length = (w.length + bits.length) % 8 := by
  rw [← List.length_append, h, List.length_append, bitStream_length, Nat.mul_add_mod, Nat.mod_eq_of_lt hrest]

/-- The commands for the codes of a bit stream, the last one flagged, deliver the bits held followed by the stream, if these end
on a byte boundary; by induction on the groups. As long as only main symbols came, `D.residue` counts the bits held (R134). -/
theorem delivers_regroup {α : Type} {input : Bool × α → Input} {code : α → Code}
    (hinput : ∀ last a, (input (last, a)).Takes last (code a)) (k : Nat) :
    ∀ {xs : List α} {bits w : List Bool} {d : Dec}, xs.map code = regroup k bits → bits.length / 11 = k →
      d.Holds w → d.residue.toNat = w.length → 8 ∣ w.length + bits.length →
    ∃ (bytes : List Byte) (d' : Dec), Delivers ((flagLast xs).map input) d bytes d' ∧ d'.Holds [] ∧
      bitStream bytes = w ++ bits := by
  induction k with
  | zero =>
    intro xs bits w d hxs hk hd hres hend
    have hw := hd.length_lt
    rcases remainderCode_width hd hres hend (by omega) with ⟨rfl, hnil⟩ | ⟨c, hcode, hidx, hwidth⟩
    · obtain rfl : w = [] := List.length_eq_zero_iff.mp (by rw [List.length_nil] at hend; omega)
      rw [regroup, hnil, List.map_eq_nil_iff] at hxs
      subst hxs
      exact ⟨[], d, .nil d, hd, rfl⟩
    · rw [regroup, hcode, List.map_eq_singleton_iff] at hxs
      obtain ⟨a, rfl, rfl⟩ := hxs
      obtain ⟨bs, rest, d', hbits, hrest, -, hdel⟩ :=
        (hinput true a).delivers hd hidx hwidth (toNat_ofNat_bitsValue (by omega))
      have hleft := length_left hbits hrest.length_lt
      obtain rfl : rest = [] := List.length_eq_zero_iff.mp (by omega)
      exact ⟨bs, d', hdel, hrest, by rw [hbits, List.append_nil]⟩
  | succ k ih =>
    intro xs bits w d hxs hk hd hres hend
    obtain ⟨group, more, rfl, hgroup⟩ : ∃ group more, bits = group ++ more ∧ group.length = 11 :=
      ⟨bits.take 11, bits.drop 11, (List.take_append_drop 11 bits).symm, List.length_take_of_le (by omega)⟩
    rw [List.length_append] at hk hend
    have hmore : more.length / 11 = k := by omega
    rw [regroup, List.take_left' hgroup, List.drop_left' hgroup, List.map_eq_cons_iff] at hxs
    obtain ⟨a, xs, rfl, hcode, hxs⟩ := hxs
    have hlast : xs.isEmpty = true → more = [] := by
      intro hempty
      rw [List.isEmpty_iff.mp hempty, List.map_nil, ← hmore] at hxs
      exact regroup_eq_nil hxs.symm
    have hwidth : group.length = d.codeWidth xs.isEmpty (code a) := by
      rw [hcode, Dec.codeWidth, Dec.mainWidth_advanceResidue, hres]
      split
      case isTrue hempty =>
        rw [hlast hempty, List.length_nil] at hend
        omega
      case isFalse => exact hgroup
    obtain ⟨bs, rest, d₁, hbits, hrest, hres₁, hdel⟩ := (hinput xs.isEmpty a).delivers hd
      (i := BitVec.ofNat 11 (bitsValue group)) (by rw [hcode]; rfl) hwidth (toNat_ofNat_bitsValue hgroup.le)
    have hleft := length_left hbits hrest.length_lt
    have hres₁' : d₁.residue.toNat = rest.length := by
      rw [hres₁, Dec.advanceResidue_residue, hres, hleft, hgroup]
    obtain ⟨bytes, d', hdel', hd', hbytes⟩ := ih hxs hmore hrest hres₁' (by omega)
    refine ⟨bs ++ bytes, d', ?_, hd', ?_⟩
    · rw [flagLast_cons]
      exact hdel.append hdel'
    · rw [bitStream_append, hbytes, ← List.append_assoc, ← hbits, List.append_assoc]

/-- A decode stream on the codes of `packed bs`, before its DEC.END, delivers `bs` and holds nothing, whatever the decoder held
before (R135, R136). -/
theorem delivers_packed {α : Type} {input : Bool × α → Input} {code : α → Code}
    (hinput : ∀ last a, (input (last, a)).Takes last (code a)) {xs : List α} {bs : List Byte}
    (hxs : xs.map code = packed bs) (d : Dec) :
    ∃ d', Delivers (.ofInstr .decInit :: (flagLast xs).map input) d bs d' ∧ d'.Holds [] := by
  have hinitial : Dec.initial.Holds [] := ⟨rfl, rfl, rfl⟩
  obtain ⟨bytes, d', hdel, hd', hbytes⟩ := delivers_regroup hinput _ hxs (by rw [bitStream_length]) hinitial rfl
    (by rw [bitStream_length, List.length_nil, Nat.zero_add]; exact Nat.dvd_mul_right 8 _)
  obtain rfl := bitStream_injective hbytes
  exact ⟨d', (delivers_decInit d).append hdel, hd'⟩

/-- The same with DEC.END (R136). -/
theorem decodeStream_of_packed {α : Type} {input : Bool × α → Input} {code : α → Code}
    (hinput : ∀ last a, (input (last, a)).Takes last (code a)) {xs : List α} {bs : List Byte}
    (hxs : xs.map code = packed bs) (s : State) :
    outputsOf decodeResult
      (performAll (.ofInstr .decInit :: (flagLast xs).map input ++ [.ofInstr .decEnd]) s) = .next (.ok bs) := by
  obtain ⟨d', hdel, hd'⟩ := delivers_packed hinput hxs s.dec
  obtain ⟨t, out, hrun, -, hres⟩ := hdel.append (delivers_decEnd hd') s rfl
  rw [hrun, outputsOf, hres, List.append_nil]

/-! ## DECODE.IDX -/

/-- The input of a flagged code in DECODE.IDX (R80). -/
abbrev codeInput (c : Bool × Code) : Input := .ofInstr (c.2.command c.1)

theorem decodeIdxCommands_inputs (cs : List Code) :
    (decodeIdxCommands cs).dropLast.map .ofInstr = .ofInstr .decInit :: (flagLast cs).map codeInput := by
  rw [decodeIdxCommands, List.dropLast_concat, List.map_cons, List.map_map]
  rfl

/-- Settles O54 (R136). -/
theorem decodeIdxOfEncodeReturnsTheBytes : Obligations.DecodeIdxOfEncodeReturnsTheBytes := by
  intro bs s s'
  refine ⟨packed bs, (encodeEmitsThePackedBitStream bs s).1, ?_⟩
  have hrun := decodeStream_of_packed (input := codeInput) takes_code_command (List.map_id (packed bs)) s'
  rw [runDecodeIdx, decodeIdxCommands, List.map_append, List.map_cons, List.map_map]
  exact hrun

/-- Settles O56 (R135). -/
theorem decEndIsSilentAfterEncodedStreams : Obligations.DecEndIsSilentAfterEncodedStreams := by
  intro bs s s'
  obtain ⟨d, hdel, hd⟩ := delivers_packed (input := codeInput) takes_code_command (List.map_id (packed bs)) s'.dec
  obtain ⟨t, out, hrun, rfl, hres⟩ := hdel s' rfl
  refine ⟨packed bs, (encodeEmitsThePackedBitStream bs s).1, t, out, _, ?_, ?_, hd.fail,
    (decodeResult_eq_ok.mp hres).2, exec_decEnd_silent hd, rfl⟩
  · rw [decodeIdxCommands_inputs, hrun]
  · rw [hd.eq_of_nil]

/-! ## DECODE -/

/-- The search undoes the symbol output for a code the tables hold (R162). -/
theorem map_classify_symbols {cs : List Code} (h : ∀ c ∈ cs, ∃ y, c.symbol = some y ∧ classify y = c) :
    (cs.filterMap Code.symbol).map classify = cs := by
  induction cs with
  | nil => rfl
  | cons c cs ih =>
    obtain ⟨⟨y, hy, hc⟩, hcs⟩ := List.forall_mem_cons.mp h
    rw [List.filterMap_cons_some hy, List.map_cons, hc, ih hcs]

/-- A code that is a main index, or a tail index that every tail table has (R8), stands in the tables. -/
theorem exists_symbol_of_code {c : Code} {i : Index} (h : c = .main i ∨ (c = .tail i ∧ i.toNat < 8)) :
    ∃ y, c.symbol = some y ∧ classify y = c := by
  rcases h with rfl | ⟨rfl, hi⟩
  · exact ⟨_, rfl, classify_mainSym i⟩
  · exact ⟨_, rfl, classify_tailSym (hi.trans_le Config.tables.tailN_ge)⟩

/-- Every code of a bit stream stands for a symbol of the tables: its tail index has at most 3 bits (R107). -/
theorem regroup_has_symbols (k : Nat) :
    ∀ bits : List Bool, ∀ c ∈ regroup k bits, ∃ y, c.symbol = some y ∧ classify y = c := by
  induction k with
  | zero =>
    intro bits c hc
    rw [regroup, remainderCode] at hc
    split_ifs at hc with h0 h3
    · cases hc
    · have hlt : bitsValue bits < 2 ^ 3 := (bitsValue_lt bits).trans_le (Nat.pow_le_pow_right (by decide) h3)
      exact exists_symbol_of_code (.inr ⟨List.mem_singleton.mp hc, by rwa [toNat_ofNat_bitsValue (by omega)]⟩)
    · exact exists_symbol_of_code (.inl (List.mem_singleton.mp hc))
  | succ k ih =>
    intro bits c hc
    rcases List.mem_cons.mp hc with rfl | hc
    · exact exists_symbol_of_code (.inl rfl)
    · exact ih _ c hc

/-- Settles O55 (R136, R53). -/
theorem decodeOfEncodeReturnsTheBytes : Obligations.DecodeOfEncodeReturnsTheBytes := by
  intro bs s s'
  exact ⟨_, (encodeEmitsThePackedBitStream bs s).2,
    decodeStream_of_packed takes_decSym (map_classify_symbols (regroup_has_symbols _ _)) s'⟩

/-- A DEC command always answers. -/
theorem exec_dec_answers {i : Instr} (hi : i.commandUnit = .dec) (s : State) :
    ∃ t r, exec i s = .next t ∧ t.resp = some r := by
  obtain ⟨d, r, -, hexec⟩ := exec_dec_cases hi s.dec s.symIn
  exact ⟨_, r, hexec s rfl rfl, rfl⟩

/-- DEC.SYM on a symbol of neither table does not end with `OK` (R129, R131, R157). -/
theorem classify_ne_none_of_ok {last : Bool} {s t : State} {r : Response} (ht : exec (.decSym last) s = .next t)
    (hr : t.resp = some r) (hok : r.status = .ok) : classify s.symIn ≠ .none := by
  intro hc
  obtain ⟨d, hexec, -⟩ := decNoneAlwaysFaults.2.2 s last
  cases ((exec_decSym_eq last hc).trans hexec).symm.trans ht
  cases hr
  cases hok

/-- DEC.SYM commands, with DEC.END behind, are performed, and all end with `OK` only if every symbol is in a table (R129). -/
theorem performAll_decSyms (syms : List (Bool × Symbol)) :
    ∀ s : State, ∃ t out,
      performAll (syms.map (fun c => .command (encode (.decSym c.1)) c.2) ++ [.ofInstr .decEnd]) s = .next (t, out) ∧
      ((∀ r ∈ out, r.status = .ok) → ∀ c ∈ syms, classify c.2 ≠ .none) := by
  induction syms with
  | nil =>
    intro s
    obtain ⟨t, r, ht, -⟩ := exec_dec_answers (i := .decEnd) rfl (s.present Config.idleSymbol [])
    exact ⟨t, _, performAll_ofInstr ht rfl, fun _ => List.forall_mem_nil _⟩
  | cons c syms ih =>
    intro s
    obtain ⟨t, r, ht, hr⟩ := exec_dec_answers (i := .decSym c.1) rfl (s.present c.2 [])
    obtain ⟨u, out, hrun, hout⟩ := ih t
    refine ⟨u, _, performAll_command (decode_encode _) ht hrun, fun hok => ?_⟩
    rw [hr, Option.toList_some, List.singleton_append, List.forall_mem_cons] at hok
    exact List.forall_mem_cons.mpr ⟨classify_ne_none_of_ok ht hr hok.1, hout hok.2⟩

/-- `flagLast` keeps every element. -/
theorem flagLast_map_snd {α : Type} (xs : List α) : (flagLast xs).map Prod.snd = xs := by
  induction xs with
  | nil => rfl
  | cons x xs ih => rw [flagLast_cons, List.map_cons, ih]

/-- The search finds a symbol only where a table holds it (R156). -/
theorem in_table_of_classify {y : Symbol} (h : classify y ≠ .none) :
    Config.tables.mainIdx y ≠ none ∨ Config.tables.tailIdx y ≠ none := by
  rcases classify_cases y with ⟨i, hm, -⟩ | ⟨j, -, ht, -⟩ | ⟨-, -, hc⟩
  · exact .inl (by rw [hm]; exact Option.some_ne_none i)
  · exact .inr (by rw [ht]; exact Option.some_ne_none j)
  · exact absurd hc h

/-- Settles O57 (R129, R133, R138). -/
theorem decodeRejectsForeignSymbols : Obligations.DecodeRejectsForeignSymbols := by
  intro syms s
  obtain ⟨t, r, ht, -⟩ := exec_dec_answers (i := .decInit) rfl (s.present Config.idleSymbol [])
  obtain ⟨u, out, hrun, hout⟩ := performAll_decSyms (flagLast syms) t
  have hall := performAll_ofInstr ht hrun
  generalize t.resp.toList = first at hall
  have hdecode : runDecode syms s = .next (decodeResult (first ++ out)) := congrArg (outputsOf decodeResult) hall
  rw [hdecode]
  rcases hres : decodeResult (first ++ out) with e | bs
  · left
    unfold decodeResult at hres
    split at hres <;> cases hres
    rfl
  · right
    obtain ⟨hok, -⟩ := decodeResult_eq_ok.mp hres
    refine ⟨bs, rfl, fun y hy => ?_⟩
    rw [← flagLast_map_snd syms] at hy
    obtain ⟨c, hc, rfl⟩ := List.mem_map.mp hy
    exact in_table_of_classify (hout (fun r hr => hok r (List.mem_append_right _ hr)) c hc)

end Sys2Proof.Machine
end

section
/-! PROOFS. The statements on the table commands (42_lookup.md R150 to R157, R162). A LUT command drives the answer of one read
or one search of the tables and touches nothing else; DEC.SYM performs the command that the search of LUT.CLASS names. -/

namespace Sys2Proof.Machine

/-! ## The reads -/

/-- R153, an index in range. -/
theorem exec_lutTsym_of_lt (s : State) {idx : Index} (h : idx.toNat < Config.tables.tailN) :
    exec (.lutTsym idx) s = .next (s.respond (.emission (.tail idx))) :=
  congrArg _ (if_neg (Nat.not_le.mpr h))

/-- R153, R174: an index beyond the tail table. -/
theorem exec_lutTsym_of_ge (s : State) {idx : Index} (h : Config.tables.tailN ≤ idx.toNat) :
    exec (.lutTsym idx) s = .next (s.raise .tableDefect) :=
  congrArg _ (if_pos h)

/-! ## The searches -/

/-- What LUT.MIDX drives: the kind says whether the main table holds the symbol (R154). -/
theorem answer_mainSearch (y : Symbol) :
    Response.answer (mainSearch y) =
      { status := .ok, kind := if (Config.tables.mainIdx y).isSome then .main else .none
        idx := Config.tables.mainIdx y, symOut := none, bytes := [] } := by
  unfold mainSearch
  cases Config.tables.mainIdx y <;> rfl

/-- What LUT.TIDX drives: the kind says whether the tail table holds the symbol (R155). -/
theorem answer_tailSearch (y : Symbol) :
    Response.answer (tailSearch y) =
      { status := .ok, kind := if (Config.tables.tailIdx y).isSome then .tail else .none
        idx := Config.tables.tailIdx y, symOut := none, bytes := [] } := by
  unfold tailSearch
  cases Config.tables.tailIdx y <;> rfl

theorem mainSearch_tailSym {j : Index} (h : j.toNat < Config.tables.tailN) :
    mainSearch (Config.tables.tailSym j) = .none := by
  rw [mainSearch, mainIdx_tailSym h]

theorem tailSearch_mainSym (i : Index) : tailSearch (Config.tables.mainSym i) = .none := by
  rw [tailSearch, tailIdx_mainSym i]

theorem exec_lutMidx_eq {s : State} {c : Code} (hc : mainSearch s.symIn = c) :
    exec .lutMidx s = .next (s.respond (.answer c)) := by
  rw [← hc]; rfl

theorem exec_lutTidx_eq {s : State} {c : Code} (hc : tailSearch s.symIn = c) :
    exec .lutTidx s = .next (s.respond (.answer c)) := by
  rw [← hc]; rfl

theorem exec_lutClass_eq {s : State} {c : Code} (hc : classify s.symIn = c) :
    exec .lutClass s = .next (s.respond (.answer c)) := by
  rw [← hc]; rfl

/-! ## The statements -/

/-- Settles O43 (R150). -/
theorem lutCommandsDependOnTheirOperandAlone : Obligations.LutCommandsDependOnTheirOperandAlone := by
  intro s s' i hi hsym
  obtain ⟨r, hexec⟩ := exec_lut_uniform hi s.symIn
  exact ⟨r, hexec s rfl, hexec s' hsym.symm⟩

/-- Settles O37 (R152). -/
theorem lutMsymReadsTheMainTable : Obligations.LutMsymReadsTheMainTable :=
  ⟨fun idx => cmdWord_eq_or 9 false idx, fun _ _ => rfl⟩

/-- Settles O38 (R153): index 7 is in the table because `8 ≤ TAIL_N` (R8). -/
theorem lutTsymReadsTheTailTable : Obligations.LutTsymReadsTheTailTable := by
  refine ⟨fun idx => cmdWord_eq_or 10 false idx, Config.tables.tailN_ge, fun s idx => ?_⟩
  by_cases hidx : idx.toNat < Config.tables.tailN
  · rw [exec_lutTsym_of_lt s hidx, if_pos hidx]; rfl
  · rw [exec_lutTsym_of_ge s (Nat.not_lt.mp hidx), if_neg hidx]; rfl

/-- Settles O39 (R154); a tail symbol is not in the main table by I3. -/
theorem lutMidxSearchesTheMainTable : Obligations.LutMidxSearchesTheMainTable := by
  refine ⟨rfl, fun s => ?_, fun s j hj hsym => ?_⟩
  · rw [exec_lutMidx_eq rfl, answer_mainSearch]; rfl
  · exact exec_lutMidx_eq (hsym ▸ mainSearch_tailSym hj)

/-- Settles O40 (R155); a main symbol is not in the tail table by I3. -/
theorem lutTidxSearchesTheTailTable : Obligations.LutTidxSearchesTheTailTable := by
  refine ⟨rfl, fun s => ?_, fun s i hsym => ?_⟩
  · rw [exec_lutTidx_eq rfl, answer_tailSearch]; rfl
  · exact exec_lutTidx_eq (hsym ▸ tailSearch_mainSym i)

/-- Settles O41 (R156). -/
theorem lutClassSearchesMainThenTail : Obligations.LutClassSearchesMainThenTail := by
  refine ⟨rfl, fun s => ?_⟩
  rcases classify_cases s.symIn with ⟨i, hm, hc⟩ | ⟨j, hm, ht, hc⟩ | ⟨hm, ht, hc⟩
  · rw [exec_lutClass_eq hc, hm]; rfl
  · rw [exec_lutClass_eq hc, hm, ht]; rfl
  · rw [exec_lutClass_eq hc, hm, ht]; rfl

/-- Settles O42 (R162). -/
theorem lutClassUndoesTheSymbolOutput : Obligations.LutClassUndoesTheSymbolOutput :=
  ⟨fun _ i hsym => exec_lutClass_eq (hsym ▸ classify_mainSym i),
    fun _ _ hj hsym => exec_lutClass_eq (hsym ▸ classify_tailSym hj)⟩

/-- Settles O44 (R157). -/
theorem decSymPerformsTheClassifiedCommand : Obligations.DecSymPerformsTheClassifiedCommand := by
  refine ⟨rfl, rfl, fun s last => ?_⟩
  rcases classify_cases s.symIn with ⟨i, hm, hc⟩ | ⟨j, hm, ht, hc⟩ | ⟨hm, ht, hc⟩
  · rw [exec_decSym_eq last hc, hm]; rfl
  · rw [exec_decSym_eq last hc, hm, ht]; rfl
  · rw [exec_decSym_eq last hc, hm, ht]; rfl

end Sys2Proof.Machine
end

section
/-! PROOFS. The statements on faults (60_exceptions.md R171 to R176, R189). The status of every command is read off the
table of R172 once; which commands can raise InvalidSymbol then follows from that table alone. -/

namespace Sys2Proof.Machine

/-! ## Nothing presented, and illegal words -/

/-- Settles O8 (R189, R200). -/
theorem idleBlockHoldsItsState : Obligations.IdleBlockHoldsItsState := by
  intro s hq
  simp [step, hq]

/-- Settles O7 (R175). -/
theorem illegalWordChangesNoRegister : Obligations.IllegalWordChangesNoRegister :=
  fun _ _ _ _ _ hq hw => step_of_illegal hq hw

/-- What a step on a command word that answers a next state did: perform the command, or reject the word. -/
theorem step_word_cases {s t : State} {w : CmdWord} {y : Symbol} {rest : List Input}
    (hq : s.queue = .command w y :: rest) (ht : step s = .next t) :
    (∃ i, decode w = .ok i ∧ exec i (s.present y rest) = .next t) ∨
    (∃ e, decode w = .error e ∧ t = (s.present y rest).illegal) := by
  cases hw : decode w with
  | ok i => exact .inl ⟨i, rfl, step_of_decode hq hw ▸ ht⟩
  | error e =>
    rw [step_of_illegal hq hw] at ht
    cases ht
    exact .inr ⟨e, rfl, rfl⟩

/-! ## The status of each command (R172) -/

/-- The command answers a next state and leaves the status `st` on the port. -/
def EndsWith (o : Host.Outcome State Fault Refusal) (st : Status) : Prop :=
  ∃ t r, o = .next t ∧ t.resp = some r ∧ r.status = st

theorem endsWith_respond (s : State) (r : Response) : EndsWith (.next (s.respond r)) r.status :=
  ⟨_, r, rfl, rfl, rfl⟩

/-- The row of DEC.SYM: it ends as the command it performs. -/
theorem statusOf_decSym (last : Bool) (s : State) :
    statusOf (.decSym last) s = statusOf ((classify s.symIn).command last) s := by
  rcases classify_cases s.symIn with ⟨i, hm, hc⟩ | ⟨j, hm, ht, hc⟩ | ⟨hm, ht, hc⟩
  · simp only [statusOf, Code.command, hm, hc]
  · simp only [statusOf, Code.command, hm, ht, hc]
  · simp only [statusOf, Code.command, hm, ht, hc]

/-- The symbol commands' rows while `D.fail = 1`. -/
theorem statusOf_code_command_failed {s : State} (hf : s.dec.fail = true) (last : Bool) (c : Code) :
    statusOf (c.command last) s = .invalidSymbol := by
  cases c <;> simp [statusOf, Code.command, hf]

/-- The symbol commands end as R172 has it: cause (a) for a symbol of neither table, cause (b) for a tail index
too large. -/
theorem exec_code_command_endsWith (last : Bool) (c : Code) (s : State) :
    EndsWith (exec (c.command last) s) (statusOf (c.command last) s) := by
  cases hf : s.dec.fail with
  | true =>
    rw [exec_code_command, State.whileLive_failed _ _ hf, statusOf_code_command_failed hf]
    exact endsWith_respond s _
  | false =>
    rw [exec_code_command_live hf]
    cases c with
    | main idx =>
      have hst : statusOf (.decMain last idx) s = .ok := by simp [statusOf, hf]
      rw [Code.command, hst]
      exact endsWith_respond _ (.ofBytes _)
    | tail idx =>
      rcases State.takeTail_cases s last idx with ⟨hfits, heq⟩ | ⟨hlarge, heq⟩
      · have hst : statusOf (.decTail last idx) s = .ok := by simpa [statusOf, hf, Dec.need] using hfits
        rw [Code.command, hst, State.takeCode, heq]
        exact endsWith_respond _ (.ofBytes _)
      · have hst : statusOf (.decTail last idx) s = .invalidSymbol := by simpa [statusOf, hf, Dec.need] using hlarge
        rw [Code.command, hst, State.takeCode, heq]
        exact endsWith_respond _ (.fault _)
    | none => exact endsWith_respond _ (.fault _)

theorem exec_decEnd_endsWith (s : State) : EndsWith (exec .decEnd s) (statusOf .decEnd s) := by
  cases hf : s.dec.fail with
  | true =>
    rw [failedDecoderIsInert.1 s .decEnd hf rfl (by decide), statusOf, if_pos hf]
    exact endsWith_respond s invalidSymbolResponse
  | false =>
    rw [exec_decEnd_live hf, statusOf, hf]
    exact endsWith_respond _ (.ofBytes _)

theorem exec_lutTsym_endsWith (idx : Index) (s : State) :
    EndsWith (exec (.lutTsym idx) s) (statusOf (.lutTsym idx) s) := by
  by_cases hidx : idx.toNat < Config.tables.tailN
  · rw [exec_lutTsym_of_lt s hidx, statusOf, if_pos hidx]
    exact endsWith_respond s (.emission _)
  · rw [exec_lutTsym_of_ge s (Nat.not_lt.mp hidx), statusOf, if_neg hidx]
    exact endsWith_respond s (.fault _)

/-- Every command that is not refused (U7) ends with the status of its row. -/
theorem exec_refused_or_endsWith (i : Instr) (s : State) :
    (∃ q, exec i s = .refused q) ∨ EndsWith (exec i s) (statusOf i s) := by
  cases i with
  | encInit | decInit => exact .inr (endsWith_respond _ .quiet)
  | encByte b =>
    rcases Nat.lt_or_ge 10 s.enc.pending.toNat with hp | hp
    · exact .inl ⟨_, exec_encByte_refused b hp⟩
    · exact .inr (exec_encByte b hp ▸ endsWith_respond _ (.emission _))
  | encFlush =>
    rcases Nat.lt_or_ge 10 s.enc.pending.toNat with hp | hp
    · exact .inl ⟨_, exec_encFlush_refused hp⟩
    · exact .inr (exec_encFlush hp ▸ endsWith_respond _ (.emission _))
  | decMain last idx => exact .inr (exec_code_command_endsWith last (.main idx) s)
  | decTail last idx => exact .inr (exec_code_command_endsWith last (.tail idx) s)
  | decNone last => exact .inr (exec_code_command_endsWith last .none s)
  | decSym last =>
    rw [statusOf_decSym, exec_decSym_eq last rfl]
    exact .inr (exec_code_command_endsWith last _ s)
  | decEnd => exact .inr (exec_decEnd_endsWith s)
  | lutTsym idx => exact .inr (exec_lutTsym_endsWith idx s)
  | lutMsym idx => exact .inr (endsWith_respond s (.emission _))
  | lutMidx | lutTidx | lutClass => exact .inr (endsWith_respond s (.answer _))

/-- Settles O36 (R172): with `E.pending` at most 10 no command is refused. -/
theorem commandsEndWithTheseStatuses : Obligations.CommandsEndWithTheseStatuses := by
  refine ⟨fun s i hp => ?_, fun s w y rest e hq hw => ⟨_, _, step_of_illegal hq hw, rfl, rfl⟩⟩
  rcases exec_refused_or_endsWith i s with hrefused | hends
  · have hbeyond : 10 < s.enc.pending.toNat := ((onlyUnreachedPendingCountsAreRefused s i).mp hrefused).1
    exact absurd hp (Nat.not_le.mpr hbeyond)
  · exact hends

/-- The status on the ports after a command is the one of its row. -/
theorem status_of_exec {i : Instr} {s t : State} {r : Response} (ht : exec i s = .next t) (hr : t.resp = some r) :
    r.status = statusOf i s := by
  rcases exec_refused_or_endsWith i s with ⟨q, hq⟩ | ⟨t', r', ht', hr', hst⟩
  · cases hq.symm.trans ht
  · cases ht'.symm.trans ht
    cases hr'.symm.trans hr
    exact hst

/-! ## InvalidSymbol and `D.fail` (R171, R27) -/

/-- Only the decoder's rows of R172 name InvalidSymbol. -/
theorem commandUnit_of_statusOf_invalidSymbol {i : Instr} {s : State} (h : statusOf i s = .invalidSymbol) :
    i.commandUnit = .dec := by
  cases i with
  | decInit | decMain | decTail | decNone | decEnd | decSym => rfl
  | lutTsym idx =>
    simp only [statusOf] at h
    split at h <;> cases h
  | _ => cases h

/-- A DEC command that ends with InvalidSymbol drives nothing else and leaves `D.fail` 1: the decoder had failed, or the
command raised the fault. -/
theorem DecEffect.of_invalidSymbol {i : Instr} {d d' : Dec} {r : Response} (h : DecEffect i d d' r)
    (hst : r.status = .invalidSymbol) : d'.fail = true ∧ r = invalidSymbolResponse := by
  cases h with
  | dead hf => exact ⟨hf, rfl⟩
  | reject => exact ⟨rfl, rfl⟩
  | init | take | finish => cases hst

/-- A DEC command that takes `D.fail` from 0 to 1 raised InvalidSymbol. -/
theorem DecEffect.status_of_sets_fail {i : Instr} {d d' : Dec} {r : Response} (h : DecEffect i d d' r)
    (hd : d.fail = false) (hd' : d'.fail = true) : r.status = .invalidSymbol := by
  cases h with
  | dead | reject => rfl
  | init | finish => cases hd'
  | take => simp [hd] at hd'

theorem exec_invalidSymbol {i : Instr} {s t : State} {r : Response} (ht : exec i s = .next t) (hr : t.resp = some r)
    (hst : r.status = .invalidSymbol) :
    t.dec.fail = true ∧ r = invalidSymbolResponse ∧ i.commandUnit = .dec := by
  have hunit : i.commandUnit = .dec := commandUnit_of_statusOf_invalidSymbol ((status_of_exec ht hr).symm.trans hst)
  obtain ⟨d, r', heff, hexec⟩ := exec_dec_cases hunit s.dec s.symIn
  cases (hexec s rfl rfl).symm.trans ht
  cases hr
  obtain ⟨hfail, hresp⟩ := heff.of_invalidSymbol hst
  exact ⟨hfail, hresp, hunit⟩

theorem exec_sets_fail {i : Instr} {s t : State} {r : Response} (ht : exec i s = .next t) (hr : t.resp = some r)
    (hs : s.dec.fail = false) (hset : t.dec.fail = true) : r.status = .invalidSymbol := by
  rcases exec_next_cases ht with ⟨e, r', -, rfl⟩ | ⟨d, r', heff, rfl⟩ | ⟨r', -, rfl⟩
  · simp [hs] at hset
  · cases hr
    exact heff.status_of_sets_fail hs hset
  · simp [hs] at hset

/-- Settles O35 (R171, R27): an illegal word neither ends with InvalidSymbol nor sets `D.fail`. -/
theorem invalidSymbolSetsFail : Obligations.InvalidSymbolSetsFail := by
  intro s t w y rest r hq ht hr
  rcases step_word_cases hq ht with ⟨i, hw, hexec⟩ | ⟨e, -, rfl⟩
  · refine ⟨fun hst => ?_, exec_sets_fail (s := s.present y rest) hexec hr⟩
    obtain ⟨hfail, hresp, hunit⟩ := exec_invalidSymbol hexec hr hst
    exact ⟨hfail, hresp, i, hw, hunit⟩
  · cases hr
    refine ⟨nofun, fun hs hset => ?_⟩
    simp [State.illegal, hs] at hset

/-! ## The codes on the port (R176) -/

/-- The statuses that are not kept for the software around the block (R173) have the four codes the block drives. -/
theorem Status.port_driven {st : Status} (hdata : st ≠ .invalidData) (hio : st ≠ .ioError) :
    st.port = 0 ∨ st.port = 1 ∨ st.port = 4 ∨ st.port = 5 := by
  cases st with
  | ok => exact .inl rfl
  | invalidSymbol => exact .inr (.inl rfl)
  | tableDefect => exact .inr (.inr (.inl rfl))
  | illegalCommand => exact .inr (.inr (.inr rfl))
  | invalidData => exact absurd rfl hdata
  | ioError => exact absurd rfl hio

/-- A command leaves a legal response, from any state. -/
theorem exec_response_legal {i : Instr} {s t : State} (ht : exec i s = .next t) :
    ∃ r, t.resp = some r ∧ r.Legal := by
  rcases exec_next_cases ht with ⟨e, r, heff, rfl⟩ | ⟨d, r, heff, rfl⟩ | ⟨r, hr, rfl⟩
  · exact ⟨r, rfl, heff.response_legal⟩
  · exact ⟨r, rfl, heff.response_legal⟩
  · exact ⟨r, rfl, hr⟩

/-- Settles O49 (R173, R176). -/
theorem onlyFourStatusCodesAreDriven : Obligations.OnlyFourStatusCodesAreDriven := by
  refine ⟨rfl, rfl, rfl, rfl, rfl, rfl, fun s t w y rest hq ht => ?_⟩
  rcases step_word_cases hq ht with ⟨i, -, hexec⟩ | ⟨e, -, rfl⟩
  · obtain ⟨r, hr, -, -, -, -, hdata, hio, -⟩ := exec_response_legal hexec
    exact ⟨r, hr, Status.port_driven hdata hio⟩
  · exact ⟨_, rfl, Status.port_driven (st := .illegalCommand) (by decide) (by decide)⟩

end Sys2Proof.Machine
end

section
/-! PROOFS. The statements on reset (70_reset_and_hazards.md R200, R201): it does to each unit what the unit's INIT does, and a
command that ends a stream leaves its unit the same registers again. -/

namespace Sys2Proof.Machine

/-- A reset that the host presents is taken off the sequence and performed (R200). -/
theorem step_of_reset {s : State} {rest : List Input} (hq : s.queue = .reset :: rest) :
    step s = .next (s.advance rest).applyReset := by
  simp [step, hq]

/-- Settles O2 (R200): what the two INITs leave is R100 and R120. -/
theorem resetInputActsAsBothInits : Obligations.ResetInputActsAsBothInits := fun s _ hq =>
  have henc := encInitClearsTheEncoder.2 s
  have hdec := decInitClearsTheDecoder.2 s
  ⟨step_of_reset hq, _, _, _, step_of_reset hq, henc, hdec, rfl, rfl⟩

/-- Settles O48 (R201): ENC.FLUSH is performed on at most 10 pending bits (R22, U7), DEC.END on a decoder that has not
failed (R130). -/
theorem initialStateIsTheSameAtFourPoints : Obligations.InitialStateIsTheSameAtFourPoints := by
  intro s
  refine ⟨?encInit, ?decInit, ?encFlush, ?decEnd⟩
  case encInit => exact ⟨_, encInitClearsTheEncoder.2 s, rfl⟩
  case decInit => exact ⟨_, decInitClearsTheDecoder.2 s, rfl⟩
  case encFlush => exact fun hp => ⟨_, exec_encFlush hp, rfl⟩
  case decEnd => exact fun hf => ⟨_, exec_decEnd_live hf, rfl⟩

end Sys2Proof.Machine
end
